-- ==== Sys2Proof/Word.lean ====
section
/-! DEFINITION. The word types of the core: bytes, frame words, command words, binary64 patterns (R6, R10, R11, R70). -/

namespace Sys2Proof

/-- A byte of a frame (BYTE_WIDTH, R6). -/
abbrev Byte := BitVec 8

/-- A frame word W: byte i of the frame at W[8i+7:8i] (R10, R44). -/
abbrev FrameWord := BitVec 64

/-- A command word C: cmd in C[3:0], the frame operand in C[67:4] (R70). -/
abbrev CmdWord := BitVec 68

/-- A binary64 bit pattern: sign in bit 63, biased exponent in 62:52, fraction in 51:0 (R45, R133). -/
abbrev Binary64 := BitVec 64

/-- The number of a host agent: host h<n> is n (R8, R20, R73). -/
abbrev HostId := Nat

/-- A string as a sequence of Unicode scalar values (R11). -/
abbrev UnitString := List Char

end Sys2Proof
end

