-- ==== Sys2Proof/Config.lean ====
section
/-! DEFINITION. What is fixed for the machine (R6, R7) and the one free value of the model. -/

namespace Sys2Proof

/-- FRAME_BYTES (R6). -/
def Config.frameBytes : Nat := 8

/-- The most bytes a unit string takes in UTF-8 (UNIT_ENCODING, R7). -/
def Config.unitBytesMax : Nat := 9

/-- FREE VALUE (log entry 8): the pattern of a NaN result of fdiv or fmul on the two operands given.
IEEE 754 gives such a result no one pattern; nothing constrains it, and the core never reaches it (R129). -/
opaque Config.nanResult : Binary64 → Binary64 → Binary64

end Sys2Proof
end

