-- ==== Sys2Proof/Syntax.lean ====
section
/-! DEFINITION. The instructions: one constructor per row of the opcode table (R71, R72, R75, R76). -/

namespace Sys2Proof

/-- The groups of the FRAME64 rows (R75), DIGITS among them though it selects nothing (R76). -/
inductive RowGroup where
  | overload
  | divisor
  | sign
  | metricPrefix
  | baseUnit
  | suffix
  | digits
  deriving DecidableEq, Repr

/-- One constructor per row of spec/opcode_table.json.
A command carries its whole frame operand, ignored or not (R70); a FRAME64 row carries the frame word it is
evaluated on (R75, log entry 1). -/
inductive Instr where
  /-- NEXT_FRAME, cmd 0x0 (R100); the operand is ignored. -/
  | nextFrame (w : FrameWord)
  /-- DECODE RD, cmd 0x1 (R181); the operand is ignored. -/
  | decodeRd (w : FrameWord)
  /-- DECODE_VALUE RD, cmd 0x2 (R120); the operand is ignored. -/
  | decodeValueRd (w : FrameWord)
  /-- DECODE_UNIT RD, cmd 0x3 (R155); the operand is ignored. -/
  | decodeUnitRd (w : FrameWord)
  /-- DECODE IMM, cmd 0x5 (R181). -/
  | decodeImm (w : FrameWord)
  /-- DECODE_VALUE IMM, cmd 0x6 (R120). -/
  | decodeValueImm (w : FrameWord)
  /-- DECODE_UNIT IMM, cmd 0x7 (R155). -/
  | decodeUnitImm (w : FrameWord)
  /-- RESERVED, cmd 0x4 (R72). -/
  | reserved4 (w : FrameWord)
  /-- RESERVED, cmd 0x8 to 0xF: `low` is cmd[2:0] (R72). -/
  | reserved8 (low : BitVec 3) (w : FrameWord)
  /-- OVERLOAD.SENTINEL (R121). -/
  | overloadSentinel (w : FrameWord)
  /-- OVERLOAD.NONE (R121). -/
  | overloadNone (w : FrameWord)
  /-- DIVISOR.DIV1000 (R123). -/
  | divisorDiv1000 (w : FrameWord)
  /-- DIVISOR.DIV100 (R123). -/
  | divisorDiv100 (w : FrameWord)
  /-- DIVISOR.DIV10 (R123). -/
  | divisorDiv10 (w : FrameWord)
  /-- DIVISOR.NONE (R123). -/
  | divisorNone (w : FrameWord)
  /-- SIGN.NEG (R125). -/
  | signNeg (w : FrameWord)
  /-- SIGN.POS (R125). -/
  | signPos (w : FrameWord)
  /-- PREFIX.NANO (R126). -/
  | prefixNano (w : FrameWord)
  /-- PREFIX.MEGA (R126). -/
  | prefixMega (w : FrameWord)
  /-- PREFIX.KILO (R126). -/
  | prefixKilo (w : FrameWord)
  /-- PREFIX.MILLI (R126). -/
  | prefixMilli (w : FrameWord)
  /-- PREFIX.MICRO (R126). -/
  | prefixMicro (w : FrameWord)
  /-- PREFIX.NONE (R126). -/
  | prefixNone (w : FrameWord)
  /-- BASE_UNIT.VDIODE (R150). -/
  | baseUnitVdiode (w : FrameWord)
  /-- BASE_UNIT.V (R150). -/
  | baseUnitV (w : FrameWord)
  /-- BASE_UNIT.A (R150). -/
  | baseUnitA (w : FrameWord)
  /-- BASE_UNIT.OHM (R150, R158). -/
  | baseUnitOhm (w : FrameWord)
  /-- BASE_UNIT.DEGF (R150). -/
  | baseUnitDegF (w : FrameWord)
  /-- BASE_UNIT.DEGC (R150). -/
  | baseUnitDegC (w : FrameWord)
  /-- BASE_UNIT.FARAD (R150). -/
  | baseUnitFarad (w : FrameWord)
  /-- BASE_UNIT.HZ (R150). -/
  | baseUnitHz (w : FrameWord)
  /-- BASE_UNIT.HFE (R150). -/
  | baseUnitHfe (w : FrameWord)
  /-- BASE_UNIT.UNKNOWN (R150). -/
  | baseUnitUnknown (w : FrameWord)
  /-- SUFFIX.AC (R152). -/
  | suffixAc (w : FrameWord)
  /-- SUFFIX.DC (R152). -/
  | suffixDc (w : FrameWord)
  /-- SUFFIX.NONE (R152). -/
  | suffixNone (w : FrameWord)
  /-- DIGITS (R76). -/
  | digits (w : FrameWord)
  deriving DecidableEq, Repr

/-- What an instruction is read from: a command word (format CMD68) or a frame word with the group whose rows
are looked up in it (format FRAME64). -/
inductive RawInstr where
  | command (c : CmdWord)
  | frame (g : RowGroup) (w : FrameWord)
  deriving DecidableEq, Repr

end Sys2Proof
end

