-- ==== Sys2Proof/Decode.lean ====
section
/-! DEFINITION. The opcode table, the decoder of command words and frame words, and the encoder (R70–R72, R75, R76). -/

namespace Sys2Proof

/-! ## Bytes and words -/

/-- F[i], byte i of the frame word: W[8i+7:8i] (R10, R44). -/
def frameByte (w : FrameWord) (i : Nat) : Byte := w.extractLsb' (8 * i) 8

/-- The word of width n whose byte i is element i of the list, byte 0 least significant (R10, R44, R154). -/
def packBytes (n : Nat) : List Byte → BitVec n
  | [] => 0
  | b :: bs => b.setWidth n ||| (packBytes n bs <<< 8)

/-- The first k bytes of the number, least significant first. -/
def bytesOfNat : Nat → Nat → List Byte
  | 0, _ => []
  | k + 1, x => BitVec.ofNat 8 x :: bytesOfNat k (x / 256)

/-! ## Command words -/

/-- The command word C = (W << 4) | cmd (R70, R73). -/
def commandWord (cmd : BitVec 4) (w : FrameWord) : CmdWord := w.setWidth 68 <<< 4 ||| cmd.setWidth 68

/-- C[3:0], the command code (R70). -/
def commandCode (c : CmdWord) : BitVec 4 := c.extractLsb' 0 4

/-- C[67:4], the frame operand (R70). -/
def commandOperand (c : CmdWord) : FrameWord := c.extractLsb' 4 64

/-- The instruction of a command code and operand: the codes of R71, the reserved ones of R72. -/
def instrOfCommand (cmd : BitVec 4) (w : FrameWord) : Instr :=
  if cmd = 0x0#4 then .nextFrame w
  else if cmd = 0x1#4 then .decodeRd w
  else if cmd = 0x2#4 then .decodeValueRd w
  else if cmd = 0x3#4 then .decodeUnitRd w
  else if cmd = 0x4#4 then .reserved4 w
  else if cmd = 0x5#4 then .decodeImm w
  else if cmd = 0x6#4 then .decodeValueImm w
  else if cmd = 0x7#4 then .decodeUnitImm w
  else .reserved8 (cmd.extractLsb' 0 3) w

/-- The instruction a command word spells: total, every reserved code under its own constructor (R71, R72). -/
def decodeCommand (c : CmdWord) : Instr := instrOfCommand (commandCode c) (commandOperand c)

/-! ## The FRAME64 rows of the opcode table -/

/-- A FRAME64 row's condition is `(W & mask) == pattern` (R75). -/
structure Row where
  mask : FrameWord
  pattern : FrameWord
  deriving DecidableEq, Repr

/-- A row whose condition is that one mask's bits are all set. -/
def bitsRow (mask : FrameWord) : Row := ⟨mask, mask⟩

/-- The last row of a group: mask 0, always holds (R75). -/
def elseRow : Row := ⟨0, 0⟩

/-- The rows of a group in increasing priority, masks and patterns as spec/opcode_table.json gives them (R75). -/
def rowsOf : RowGroup → List Row
  | .overload => [⟨0x0000000000FFFF00#64, 0x00000000004F4C00#64⟩, elseRow]
  | .divisor =>
    [bitsRow 0x0000000000000001#64, bitsRow 0x0000000000000002#64, bitsRow 0x0000000000000004#64, elseRow]
  | .sign => [bitsRow 0x0000000000000040#64, elseRow]
  | .metricPrefix =>
    [bitsRow 0x0000000200000000#64, bitsRow 0x0000100000000000#64, bitsRow 0x0000200000000000#64,
     bitsRow 0x0000400000000000#64, bitsRow 0x0000800000000000#64, elseRow]
  | .baseUnit =>
    [bitsRow 0x0000040000000000#64, bitsRow 0x0080000000000000#64, bitsRow 0x0040000000000000#64,
     bitsRow 0x3D00000000000000#64, bitsRow 0x0001000000000000#64, bitsRow 0x0002000000000000#64,
     bitsRow 0x0004000000000000#64, bitsRow 0x0008000000000000#64, bitsRow 0x0010000000000000#64, elseRow]
  | .suffix => [bitsRow 0x0000000008000000#64, bitsRow 0x0000000010000000#64, elseRow]
  | .digits => [elseRow]

/-- The row's own condition on a frame word (R75). -/
def rowHolds (r : Row) (w : FrameWord) : Bool := w &&& r.mask == r.pattern

/-- The priority of the first row whose condition holds, counting from k (R13, R75). -/
def firstMatch (w : FrameWord) : List Row → Nat → Nat
  | [], k => k
  | r :: rs, k => if rowHolds r w then k else firstMatch w rs (k + 1)

/-- The priority of the row a group selects on a frame word: 1 for its first row (R75). -/
def selectedPriority (g : RowGroup) (w : FrameWord) : Nat := firstMatch w (rowsOf g) 1

/-- The row of a group at a priority, on a frame word; any other number stands for the group's last row. -/
def rowInstr : RowGroup → Nat → FrameWord → Instr
  | .overload, 1, w => .overloadSentinel w
  | .overload, _, w => .overloadNone w
  | .divisor, 1, w => .divisorDiv1000 w
  | .divisor, 2, w => .divisorDiv100 w
  | .divisor, 3, w => .divisorDiv10 w
  | .divisor, _, w => .divisorNone w
  | .sign, 1, w => .signNeg w
  | .sign, _, w => .signPos w
  | .metricPrefix, 1, w => .prefixNano w
  | .metricPrefix, 2, w => .prefixMega w
  | .metricPrefix, 3, w => .prefixKilo w
  | .metricPrefix, 4, w => .prefixMilli w
  | .metricPrefix, 5, w => .prefixMicro w
  | .metricPrefix, _, w => .prefixNone w
  | .baseUnit, 1, w => .baseUnitVdiode w
  | .baseUnit, 2, w => .baseUnitV w
  | .baseUnit, 3, w => .baseUnitA w
  | .baseUnit, 4, w => .baseUnitOhm w
  | .baseUnit, 5, w => .baseUnitDegF w
  | .baseUnit, 6, w => .baseUnitDegC w
  | .baseUnit, 7, w => .baseUnitFarad w
  | .baseUnit, 8, w => .baseUnitHz w
  | .baseUnit, 9, w => .baseUnitHfe w
  | .baseUnit, _, w => .baseUnitUnknown w
  | .suffix, 1, w => .suffixAc w
  | .suffix, 2, w => .suffixDc w
  | .suffix, _, w => .suffixNone w
  | .digits, _, w => .digits w

/-- The row a group selects on a frame word, as an instruction: no frame is illegal (R64, R75). -/
def decodeRow (g : RowGroup) (w : FrameWord) : Instr := rowInstr g (selectedPriority g w) w

/-- The groups in the table's order (R75, R76). -/
def groups : List RowGroup := [.overload, .divisor, .sign, .metricPrefix, .baseUnit, .suffix, .digits]

/-- The rows a frame selects, one per group, in the table's order (R75). -/
def decodeFrame (w : FrameWord) : List Instr := groups.map fun g => decodeRow g w

/-- The instruction read from a command word or from a group's lookup in a frame word. -/
def decode : RawInstr → Instr
  | .command c => decodeCommand c
  | .frame g w => decodeRow g w

/-! ## The encoder -/

/-- The word an instruction stands in: a command word by R71 and R72, or the row's group and frame word (R75). -/
def encode : Instr → RawInstr
  | .nextFrame w => .command (commandWord 0x0#4 w)
  | .decodeRd w => .command (commandWord 0x1#4 w)
  | .decodeValueRd w => .command (commandWord 0x2#4 w)
  | .decodeUnitRd w => .command (commandWord 0x3#4 w)
  | .reserved4 w => .command (commandWord 0x4#4 w)
  | .decodeImm w => .command (commandWord 0x5#4 w)
  | .decodeValueImm w => .command (commandWord 0x6#4 w)
  | .decodeUnitImm w => .command (commandWord 0x7#4 w)
  | .reserved8 low w => .command (commandWord (1#1 ++ low) w)
  | .overloadSentinel w => .frame .overload w
  | .overloadNone w => .frame .overload w
  | .divisorDiv1000 w => .frame .divisor w
  | .divisorDiv100 w => .frame .divisor w
  | .divisorDiv10 w => .frame .divisor w
  | .divisorNone w => .frame .divisor w
  | .signNeg w => .frame .sign w
  | .signPos w => .frame .sign w
  | .prefixNano w => .frame .metricPrefix w
  | .prefixMega w => .frame .metricPrefix w
  | .prefixKilo w => .frame .metricPrefix w
  | .prefixMilli w => .frame .metricPrefix w
  | .prefixMicro w => .frame .metricPrefix w
  | .prefixNone w => .frame .metricPrefix w
  | .baseUnitVdiode w => .frame .baseUnit w
  | .baseUnitV w => .frame .baseUnit w
  | .baseUnitA w => .frame .baseUnit w
  | .baseUnitOhm w => .frame .baseUnit w
  | .baseUnitDegF w => .frame .baseUnit w
  | .baseUnitDegC w => .frame .baseUnit w
  | .baseUnitFarad w => .frame .baseUnit w
  | .baseUnitHz w => .frame .baseUnit w
  | .baseUnitHfe w => .frame .baseUnit w
  | .baseUnitUnknown w => .frame .baseUnit w
  | .suffixAc w => .frame .suffix w
  | .suffixDc w => .frame .suffix w
  | .suffixNone w => .frame .suffix w
  | .digits w => .frame .digits w

/-! ## Instructions as bytes -/

/-- The first group, in the table's order, that selects a row other than its last on the frame; DIGITS where
every group selects its last (log entry 11). -/
def headlineGroup (w : FrameWord) : RowGroup :=
  (groups.find? fun g => decide (selectedPriority g w < (rowsOf g).length)).getD .digits

/-- Why bytes spell no instruction. -/
inductive DecodeError where
  /-- Neither the 8 bytes of a frame nor the 9 bytes of a command word. -/
  | wrongLength (n : Nat)
  /-- A 9-byte command whose four bits above C[67] are not 0 (log entry 12). -/
  | commandPadding
  deriving DecidableEq, Repr

/-- What bytes hold: 9 bytes are a command word, byte 0 least significant and the top four bits 0 (log entry 12);
8 bytes are a frame (R60), read as the row of its headline group (log entry 11). -/
def rawOfBytes (bs : List Byte) : Except DecodeError RawInstr :=
  if bs.length = 9 then
    if packBytes 72 bs >>> 68 = 0 then .ok (.command ((packBytes 72 bs).setWidth 68))
    else .error .commandPadding
  else if bs.length = 8 then .ok (.frame (headlineGroup (packBytes 64 bs)) (packBytes 64 bs))
  else .error (.wrongLength bs.length)

/-- The decoder on any bytes: total, rejecting by name. -/
def decodeBytes (bs : List Byte) : Except DecodeError Instr := (rawOfBytes bs).map decode

/-- The bytes of an instruction whose table row has nbits bits holding w, zero above nbits: above 64 bits, and in 8 bits
with none set above cmd, it is a 9-byte command, else an 8-byte frame (log entry 11). -/
def tableBytes (nbits w : Nat) : List Byte :=
  bytesOfNat (if nbits ≤ 8 ∧ w < 16 ∨ 64 < nbits then 9 else 8) w

/-- The instruction the decoder reads from a table row's word; none where w does not fit in nbits bits or the
decoder refuses. -/
def decodeTableWord (nbits w : Nat) : Option Instr :=
  if w < 2 ^ nbits ∧ nbits ≤ 72 then (decodeBytes (tableBytes nbits w)).toOption else none

end Sys2Proof
end

