-- ==== Sys2Proof/Machine/State.lean ====
section
/-! DEFINITION. The state of the machine as plain data (R20–R32), its reset value (R32, R230), and the reasons a step
can stop. -/

namespace Sys2Proof.Machine

/-- rd_status (R24); the 3-bit codes are in Flags.lean, and codes 5 to 7 are never held. -/
inductive RdStatus where
  | none
  | busy
  | ok
  | shortRead
  | ioError
  deriving DecidableEq, Repr

/-- An event the stream offers (R101). -/
inductive StreamEvent where
  /-- `Byte(b)`. -/
  | byte (b : Byte)
  /-- `End`: end of data. -/
  | endOfData
  /-- `Fail`: the underlying read fails. -/
  | fail
  deriving DecidableEq, Repr

/-- A response to a host (R30). -/
inductive Response where
  | frame (w : FrameWord)
  | shortReadError
  | ioError
  | measurement (value : Binary64) (unit : UnitString)
  | value (value : Binary64)
  | unit (unit : UnitString)
  deriving DecidableEq, Repr

/-- A recorded fault of the model's `faults` list, with the host it is charged to (R31, R204, R205). -/
inductive RecordedFault where
  | noFrame (h : HostId)
  | concurrentRead (h : HostId)
  deriving DecidableEq, Repr

/-- One move of the world: whose turn it is next (R20, R208, R213; log entries 1 and 3). -/
inductive Turn where
  /-- Host h issues the command word c (R70). -/
  | command (h : HostId) (c : CmdWord)
  /-- The FrameReader steps on the stream's next event, if it can (R102, R104–R106). -/
  | reader
  /-- The core is reset (R230, R232). -/
  | reset
  /-- Frame w stands on frame_in and group g of the decoder is observed at the ports (R28, R75, log entry 1). -/
  | probe (w : FrameWord) (g : RowGroup)
  deriving DecidableEq, Repr

/-- What one evaluation of the FrameDecoder shows: its ports with their widths (R28), and the internal magnitude m
(R122), which no port carries (log entry 2). -/
structure DecoderView where
  /-- frame_in. -/
  frameIn : FrameWord
  /-- The magnitude m of R122, not a port. -/
  magnitude : Nat
  /-- value (R133). -/
  value : Binary64
  /-- overload (R121). -/
  overload : BitVec 1
  /-- div_sel (R65, R123). -/
  divSel : BitVec 2
  /-- neg (R125). -/
  neg : BitVec 1
  /-- prefix_sel (R66, R126). -/
  prefixSel : BitVec 3
  /-- base_unit (R67, R150). -/
  baseUnit : BitVec 4
  /-- suffix (R68, R152). -/
  suffix : BitVec 2
  /-- unit_len (R154). -/
  unitLen : BitVec 4
  /-- unit_bytes (R154). -/
  unitBytes : BitVec 72
  deriving DecidableEq, Repr

/-- The machine: the FrameReader's registers, the observation and marks of the run, the agents outside the core
that the rules speak of, and the model's own fields. The FrameDecoder has no state (R23); the core has no general
register, program counter, flag, memory, mode or interrupt state (R21, R22, R29, R40, R211, R212). -/
structure State where
  /-- rd_status (R24). -/
  rdStatus : RdStatus
  /-- rd_frame, or no value (R25). -/
  rdFrame : Option FrameWord
  /-- rd_buf: the bytes of the call in progress in arrival order; [] is "no value" (R26, log entry 14). -/
  rdBuf : List Byte
  /-- rd_count (R26). -/
  rdCount : Nat
  /-- rd_owner, or none (R27). -/
  rdOwner : Option HostId
  /-- The events the stream still offers, first one next (R101, log entry 4). -/
  stream : List StreamEvent
  /-- The response log, oldest first (R30). -/
  log : List (HostId × Response)
  /-- The recorded faults, oldest first (R31, R206). -/
  faults : List RecordedFault
  /-- The refusal mark (R31, R207). -/
  refused : Bool
  /-- The hosts blocked until a response, in increasing order (R100, R103, log entry 5). -/
  waiting : List HostId
  /-- The hosts with no further step, in increasing order (R204, R205, R207, log entry 5). -/
  halted : List HostId
  /-- MODEL's own: the turns still to come (log entry 3). -/
  schedule : List Turn
  /-- MODEL's own: the host whose command is being run, the `h` of the rules (log entry 10). -/
  issuer : HostId
  /-- MODEL's own: what the decoder's ports showed in the last probe, if any (R28, log entry 2). -/
  portView : Option DecoderView
  deriving DecidableEq, Repr

/-- The machine right after reset (R32, R230). The fields the core does not reset, and the model's own, are at the
values of log entries 2, 3, 4, 5 and 10. -/
def State.reset : State where
  rdStatus := .none
  rdFrame := none
  rdBuf := []
  rdCount := 0
  rdOwner := none
  stream := []
  log := []
  faults := []
  refused := false
  waiting := []
  halted := []
  schedule := []
  issuer := 1
  portView := none

/-- The reasons the machine stops. -/
inductive Fault where
  /-- Raised by the FrameReader's step that ends a call, where rd_status is BUSY and rd_owner names no host: the
  rules give the response no addressee. No run reaches such a state (Safety.lean). Safe: the model stops (log entry 9). -/
  | busyWithoutOwner
  deriving DecidableEq, Repr

/-- The reasons the machine gives a step no meaning. The refusal of R207 is not one: it is the mark `refused`. -/
inductive Refusal where
  /-- Raised by exec's arm of an instruction that has no meaning yet; no arm is left. Safe: the model stops. -/
  | notModelled (mnemonic : String)
  deriving DecidableEq, Repr

/-- The three outcomes of a step of this machine. -/
abbrev Result := Host.Outcome State Fault Refusal

end Sys2Proof.Machine
end

