-- ==== Sys2Proof/Machine/Operands.lean ====
section
/-! DEFINITION. The operand forms: the frame of a DECODE command (RD or IMM, R70, R181) and the digit fields of a
frame (R9, R43, R62). -/

namespace Sys2Proof.Machine

/-- `high_nibble(b) = b[7:4]` (R9). -/
def highNibble (b : Byte) : Nat := (b.extractLsb' 4 4).toNat

/-- `low_nibble(b) = b[3:0]` (R9). -/
def lowNibble (b : Byte) : Nat := (b.extractLsb' 0 4).toNat

/-- The thousands digit d3 (R43, R62). -/
def digit3 (w : FrameWord) : Nat := highNibble (frameByte w 1)

/-- The hundreds digit d2 (R43, R62). -/
def digit2 (w : FrameWord) : Nat := lowNibble (frameByte w 1)

/-- The tens digit d1 (R43, R62). -/
def digit1 (w : FrameWord) : Nat := highNibble (frameByte w 2)

/-- The ones digit d0 (R43, R62). -/
def digit0 (w : FrameWord) : Nat := lowNibble (frameByte w 2)

/-- The RD form's frame: rd_frame, or none where it holds no value (R25, R181). -/
def frameOfRd (s : State) : Option FrameWord := s.rdFrame

/-- The IMM form's frame: the frame operand (R70, R181). -/
def frameOfImm (w : FrameWord) : Option FrameWord := some w

/-- The frame word of eight received bytes: W[8i+7:8i] = rd_buf[i] (R42, R44, R104). -/
def frameOfBuffer (buf : List Byte) : FrameWord := packBytes 64 buf

end Sys2Proof.Machine
end

