-- ==== Sys2Proof/Machine/Ops.lean ====
section
/-! DEFINITION. The named operations on the machine: hosts, responses, recorded faults, refusals, the start and the two
ends of a NEXT_FRAME call, the FrameReader's step, and reset (R12, R103–R106, R200–R210, R230–R232). -/

namespace Sys2Proof.Machine

/-! ## Hosts -/

/-- A host put into a list of hosts kept in increasing order without repeats. -/
def insertHost (h : HostId) : List HostId → List HostId
  | [] => [h]
  | x :: xs => if h < x then h :: x :: xs else if h = x then x :: xs else x :: insertHost h xs

/-- A host taken out of a list of hosts. -/
def removeHost (h : HostId) (hs : List HostId) : List HostId := hs.filter (· != h)

/-- Host h can issue a command: it is not blocked and has not lost its further steps (R100, R204, R205, R207). -/
def canMove (h : HostId) (s : State) : Bool := !s.waiting.contains h && !s.halted.contains h

/-- A host that can issue a command: the last issuer if it can, else one above every host that cannot. -/
def freeHost (s : State) : HostId :=
  if canMove s.issuer s then s.issuer else (s.waiting ++ s.halted).foldr max 0 + 1

/-! ## Responses, faults and refusals -/

/-- `respond(h, r)`: appends response r for host h to the response log (R12, R30). -/
def respond (h : HostId) (r : Response) (s : State) : State := { s with log := s.log ++ [(h, r)] }

/-- A recorded fault: it is noted, host h gets no response and has no further step (R204, R205, R206). -/
def takeFault (f : HostId → RecordedFault) (h : HostId) (s : State) : State :=
  { s with faults := s.faults ++ [f h], halted := insertHost h s.halted }

/-- A refusal: the mark is set, host h gets no response and has no further step (R207). -/
def takeRefusal (h : HostId) (s : State) : State :=
  { s with refused := true, halted := insertHost h s.halted }

/-! ## The NEXT_FRAME call -/

/-- The start of a call by host h: BUSY, the previous frame dropped, the host blocked (R103). -/
def startCall (h : HostId) (s : State) : State :=
  { s with
    rdStatus := .busy
    rdOwner := some h
    rdCount := 0
    rdBuf := []
    rdFrame := none
    waiting := insertHost h s.waiting }

/-- The end of a call: rd_buf and rd_count are cleared, rd_status is set, and the owner gets the response and is
blocked no more (R104–R106, R209). The errors of R200 are taken by this one operation. -/
def endCall (status : RdStatus) (r : Response) (s : State) : Result :=
  match s.rdOwner with
  | some h =>
    .next (respond h r
      { s with rdStatus := status, rdBuf := [], rdCount := 0, waiting := removeHost h s.waiting })
  | none => .fault .busyWithoutOwner

/-- The bytes held after byte b is received: rd_buf[rd_count] <- b (R104). -/
def bufferWith (b : Byte) (s : State) : List Byte := s.rdBuf.take s.rdCount ++ [b]

/-- The byte step: the eighth byte delivers the frame and ends the call (R104). -/
def receiveByte (b : Byte) (s : State) : Result :=
  if s.rdCount + 1 = Config.frameBytes then
    endCall .ok (.frame (frameOfBuffer (bufferWith b s)))
      { s with rdFrame := some (frameOfBuffer (bufferWith b s)) }
  else .next { s with rdBuf := bufferWith b s, rdCount := s.rdCount + 1 }

/-- `raise ShortReadError` (R105). -/
def raiseShortRead (s : State) : Result := endCall .shortRead .shortReadError s

/-- `raise IoError` (R106). -/
def raiseIoError (s : State) : Result := endCall .ioError .ioError s

/-- What an event does to the call in progress (R104–R106). -/
def consumeEvent : StreamEvent → State → Result
  | .byte b, s => receiveByte b s
  | .endOfData, s => raiseShortRead s
  | .fail, s => raiseIoError s

/-- The FrameReader's step: while BUSY it takes the stream's next event; where it is not BUSY, or no event is offered,
it has no step (R101, R102, R107, R108). -/
def readerStep (s : State) : Result :=
  match s.rdStatus, s.stream with
  | .busy, e :: rest => consumeEvent e { s with stream := rest }
  | _, _ => .next s

/-! ## Reset -/

/-- Reset while the machine runs: every piece of the core's state at its reset value, the log and the marks empty;
the stream, the turns to come, and the hosts blocked or stopped outside the core are as they were
(R230, R232, log entry 7). -/
def resetCore (s : State) : State :=
  { State.reset with
    stream := s.stream
    waiting := s.waiting
    halted := s.halted
    schedule := s.schedule }

end Sys2Proof.Machine
end

