-- ==== Sys2Proof/Machine/FrameReader.lean ====
section
/-! DEFINITION. NEXT_FRAME (R100–R111): the command starts a call, and the FrameReader's steps (Ops.lean) run it. -/

namespace Sys2Proof.Machine

/-- NEXT_FRAME (R100, R103): a call in progress faults ConcurrentRead (R205), before any event is read (R208);
otherwise the issuing host starts a call and is blocked. The frame operand is ignored (R70). -/
def execNextFrame (_w : FrameWord) (s : State) : Result :=
  if s.rdStatus = .busy then .next (takeFault .concurrentRead s.issuer s)
  else .next (startCall s.issuer s)

end Sys2Proof.Machine
end

