-- ==== Sys2Proof/Machine/Flags.lean ====
section
/-! DEFINITION. The core has no condition codes and no floating-point flags (R22, R134). Its one-bit signals are the
overload and neg ports (R121, R125), and its one status register is rd_status (R24). -/

namespace Sys2Proof.Machine

/-- `overload`: the sentinel, F[1] = 0x4C and F[2] = 0x4F (R69, R121). -/
def overload (w : FrameWord) : Bool := frameByte w 1 = 0x4C#8 ∧ frameByte w 2 = 0x4F#8

/-- `neg`: bit 0x40 of F[0] (R125). -/
def neg (w : FrameWord) : Bool := frameByte w 0 &&& 0x40#8 ≠ 0#8

/-- The 3-bit code of rd_status (R24). -/
def statusCode : RdStatus → BitVec 3
  | .none => 0
  | .busy => 1
  | .ok => 2
  | .shortRead => 3
  | .ioError => 4

end Sys2Proof.Machine
end

