-- ==== Sys2Proof/Machine/Selectors.lean ====
section
/-! DEFINITION. The priority encoders over a frame and their codes and strings (R65–R68, R123, R126, R150–R152). Each
chain is evaluated in the stated order, the first true condition deciding (R13). -/

namespace Sys2Proof.Machine

/-- "byte[i] bit m" as a test: (F[i] & m) != 0 (R9). -/
abbrev bitSet (w : FrameWord) (i : Nat) (m : Byte) : Prop := frameByte w i &&& m ≠ 0#8

/-- The divisors (R65, R123). -/
inductive DivSel where
  | none
  | div10
  | div100
  | div1000
  deriving DecidableEq, Repr

/-- The divisor priority selector (R123). -/
def divSel (w : FrameWord) : DivSel :=
  if bitSet w 0 0x01#8 then .div1000
  else if bitSet w 0 0x02#8 then .div100
  else if bitSet w 0 0x04#8 then .div10
  else .none

/-- div_sel's code: the base-10 logarithm of the divisor (R65). -/
def divSelCode : DivSel → BitVec 2
  | .none => 0
  | .div10 => 1
  | .div100 => 2
  | .div1000 => 3

/-- The metric prefixes (R66, R126). -/
inductive PrefixSel where
  | none
  | nano
  | mega
  | kilo
  | milli
  | micro
  deriving DecidableEq, Repr

/-- The prefix priority selector (R126). -/
def prefixSel (w : FrameWord) : PrefixSel :=
  if bitSet w 4 0x02#8 then .nano
  else if bitSet w 5 0x10#8 then .mega
  else if bitSet w 5 0x20#8 then .kilo
  else if bitSet w 5 0x40#8 then .milli
  else if bitSet w 5 0x80#8 then .micro
  else .none

/-- prefix_sel's code (R66). -/
def prefixSelCode : PrefixSel → BitVec 3
  | .none => 0
  | .nano => 1
  | .mega => 2
  | .kilo => 3
  | .milli => 4
  | .micro => 5

/-- The base units (R67, R150). -/
inductive BaseUnit where
  | vdiode
  | volt
  | ampere
  | ohm
  | degF
  | degC
  | farad
  | hertz
  | hfe
  | unknown
  deriving DecidableEq, Repr

/-- The base-unit priority encoder (R150, R158). -/
def baseUnit (w : FrameWord) : BaseUnit :=
  if bitSet w 5 0x04#8 then .vdiode
  else if bitSet w 6 0x80#8 then .volt
  else if bitSet w 6 0x40#8 then .ampere
  else if frameByte w 7 &&& 0x3D#8 = 0x3D#8 then .ohm
  else if bitSet w 6 0x01#8 then .degF
  else if bitSet w 6 0x02#8 then .degC
  else if bitSet w 6 0x04#8 then .farad
  else if bitSet w 6 0x08#8 then .hertz
  else if bitSet w 6 0x10#8 then .hfe
  else .unknown

/-- base_unit's code (R67). -/
def baseUnitCode : BaseUnit → BitVec 4
  | .vdiode => 0
  | .volt => 1
  | .ampere => 2
  | .ohm => 3
  | .degF => 4
  | .degC => 5
  | .farad => 6
  | .hertz => 7
  | .hfe => 8
  | .unknown => 9

/-- BASE_STR (R151): U+03A9 for the ohm, U+00B0 for the degree sign. -/
def baseUnitString : BaseUnit → UnitString
  | .vdiode => ['V', 'd', 'i', 'o', 'd', 'e']
  | .volt => ['V']
  | .ampere => ['A']
  | .ohm => ['\u03A9']
  | .degF => ['\u00B0', 'F']
  | .degC => ['\u00B0', 'C']
  | .farad => ['F']
  | .hertz => ['H', 'z']
  | .hfe => ['h', 'F', 'E']
  | .unknown => ['u', 'n', 'k', 'n', 'o', 'w', 'n']

/-- The suffixes (R68, R152). -/
inductive Suffix where
  | none
  | ac
  | dc
  deriving DecidableEq, Repr

/-- The AC/DC suffix selector (R152). -/
def suffixSel (w : FrameWord) : Suffix :=
  if bitSet w 3 0x08#8 then .ac
  else if bitSet w 3 0x10#8 then .dc
  else .none

/-- suffix's code (R68). -/
def suffixCode : Suffix → BitVec 2
  | .none => 0
  | .ac => 1
  | .dc => 2

/-- SUFFIX_STR (R153). -/
def suffixString : Suffix → UnitString
  | .none => []
  | .ac => ['A', 'C']
  | .dc => ['D', 'C']

end Sys2Proof.Machine
end

