-- ==== Sys2Proof/Machine/UnitDecode.lean ====
section
/-! DEFINITION. The unit half of the FrameDecoder, its string ports, and DECODE_UNIT (R150–R158). -/

namespace Sys2Proof.Machine

/-- The formatter: base string then suffix string, with no separator (R153). -/
def unitString (b : BaseUnit) (x : Suffix) : UnitString := baseUnitString b ++ suffixString x

/-- decode_unit (R155). -/
def decodeUnit (w : FrameWord) : UnitString := unitString (baseUnit w) (suffixSel w)

/-- The UTF-8 bytes of one Unicode scalar value (R11, R151, K3). -/
def utf8Char (c : Char) : List Byte :=
  let n := c.toNat
  if n < 0x80 then [BitVec.ofNat 8 n]
  else if n < 0x800 then [BitVec.ofNat 8 (0xC0 + n / 64), BitVec.ofNat 8 (0x80 + n % 64)]
  else if n < 0x10000 then
    [BitVec.ofNat 8 (0xE0 + n / 4096), BitVec.ofNat 8 (0x80 + n / 64 % 64), BitVec.ofNat 8 (0x80 + n % 64)]
  else
    [BitVec.ofNat 8 (0xF0 + n / 262144), BitVec.ofNat 8 (0x80 + n / 4096 % 64),
     BitVec.ofNat 8 (0x80 + n / 64 % 64), BitVec.ofNat 8 (0x80 + n % 64)]

/-- `utf8(s)` (R11). -/
def utf8 (u : UnitString) : List Byte := u.flatMap utf8Char

/-- unit_len: the byte length of utf8 of the unit string (R154). -/
def unitLen (u : UnitString) : BitVec 4 := BitVec.ofNat 4 (utf8 u).length

/-- unit_bytes: byte k of the UTF-8 sequence at [8k+7:8k], 0x00 above (R154). -/
def unitBytes (u : UnitString) : BitVec 72 := packBytes 72 (utf8 u)

/-- DECODE_UNIT of a frame operand: responds Unit, or faults NoFrame where there is no frame (R155, R204). -/
def decodeUnitOf (f : Option FrameWord) (s : State) : Result :=
  match f with
  | some w => .next (respond s.issuer (.unit (decodeUnit w)) s)
  | none => .next (takeFault .noFrame s.issuer s)

/-- DECODE_UNIT RD (R155); the frame operand is ignored (R70). -/
def execDecodeUnitRd (_w : FrameWord) (s : State) : Result := decodeUnitOf (frameOfRd s) s

/-- DECODE_UNIT IMM (R155). -/
def execDecodeUnitImm (w : FrameWord) (s : State) : Result := decodeUnitOf (frameOfImm w) s

end Sys2Proof.Machine
end

