-- ==== Sys2Proof/Machine/Binary64.lean ====
section
/-! DEFINITION. IEEE 754 binary64: f64, fdiv, fmul and fneg, rounding to nearest with ties to even (R11, R124, R125,
R127; IEEE 754 by K1). Operands become exact integers, the result is computed exactly and rounded once. -/

namespace Sys2Proof.Machine

/-- The biased exponent field, bits 62:52 (R45). -/
def expField (v : Binary64) : Nat := (v.extractLsb' 52 11).toNat

/-- The fraction field, bits 51:0 (R45). -/
def fracField (v : Binary64) : Nat := (v.extractLsb' 0 52).toNat

/-- The sign bit, bit 63 (R45). -/
def signBit (v : Binary64) : Bool := v.getLsbD 63

/-- A NaN: the exponent field all ones and a fraction other than 0. -/
def isNaN (v : Binary64) : Bool := expField v = 2047 ∧ fracField v ≠ 0

/-- An infinity: the exponent field all ones and fraction 0. -/
def isInf (v : Binary64) : Bool := expField v = 2047 ∧ fracField v = 0

/-- A zero of either sign. -/
def isZero (v : Binary64) : Bool := expField v = 0 ∧ fracField v = 0

/-- Magnitudes are counted in units of 1/scaleUnit = 2^-1075, half the smallest subnormal. -/
def scaleUnit : Nat := 2 ^ 1075

/-- How many of the smallest subnormal, 2^-1074, make 1. -/
def quantaPerOne : Nat := 2 ^ 1074

/-- The magnitude of a finite pattern in units of 2^-1075: |v| = scaledMagnitude v / scaleUnit. -/
def scaledMagnitude (v : Binary64) : Nat :=
  if expField v = 0 then fracField v * 2 else (2 ^ 52 + fracField v) * 2 ^ expField v

/-- A sign and the low 63 bits. -/
def signed (s : Bool) (bits : Nat) : Binary64 := BitVec.ofNat 64 (s.toNat * 2 ^ 63 + bits % 2 ^ 63)

/-- The low 63 bits of an infinity. -/
def infBits : Nat := 2047 * 2 ^ 52

/-- `+inf` (R11). -/
def posInf : Binary64 := 0x7FF0000000000000#64

/-- n/d rounded to an integer, to nearest with ties to even. -/
def roundHalfEven (n d : Nat) : Nat :=
  if 2 * (n % d) < d ∨ (2 * (n % d) = d ∧ n / d % 2 = 0) then n / d else n / d + 1

/-- How many bits the quantum lies above the smallest one, for the magnitude n/d in units of 2^-1074. -/
def quantumShift (n d : Nat) : Nat := Nat.log2 (n / d) - 52

/-- The low 63 bits of the binary64 nearest num/den, ties to even; infinity from the overflow threshold up.
The magnitude is counted in units of 2^-1074, the smallest subnormal; a significand that rounds up to 2^53 carries into the
exponent field. -/
def roundBits (num den : Nat) : Nat :=
  let n := num * quantaPerOne
  let k := quantumShift n den
  min (k * 2 ^ 52 + roundHalfEven n (den * 2 ^ k)) infBits

/-- The binary64 nearest ±num/den (R11). -/
def roundNearest (s : Bool) (num den : Nat) : Binary64 := signed s (roundBits num den)

/-- `f64(n)`: the binary64 value of the integer n (R11). -/
def f64 (n : Int) : Binary64 := roundNearest (decide (n < 0)) n.natAbs 1

/-- `fneg(a)`: flips bit 63 and never rounds (R11, R125). -/
def fneg (a : Binary64) : Binary64 := a ^^^ 0x8000000000000000#64

/-- `fdiv(a, b)` (R11, R124); a NaN result is a free value (log entry 8). -/
def fdiv (a b : Binary64) : Binary64 :=
  let s := signBit a ^^ signBit b
  if isNaN a ∨ isNaN b ∨ (isInf a ∧ isInf b) ∨ (isZero a ∧ isZero b) then Config.nanResult a b
  else if isInf a ∨ isZero b then signed s infBits
  else if isInf b then signed s 0
  else roundNearest s (scaledMagnitude a) (scaledMagnitude b)

/-- `fmul(a, b)` (R11, R127); a NaN result is a free value (log entry 8). -/
def fmul (a b : Binary64) : Binary64 :=
  let s := signBit a ^^ signBit b
  if isNaN a ∨ isNaN b ∨ (isInf a ∧ isZero b) ∨ (isZero a ∧ isInf b) then Config.nanResult a b
  else if isInf a ∨ isInf b then signed s infBits
  else roundNearest s (scaledMagnitude a * scaledMagnitude b) (scaleUnit * scaleUnit)

end Sys2Proof.Machine
end

