-- ==== Sys2Proof/Machine/ValueDecode.lean ====
section
/-! DEFINITION. The value half of the FrameDecoder and DECODE_VALUE (R120–R136). -/

namespace Sys2Proof.Machine

/-- The magnitude m = 1000*d3 + 100*d2 + 10*d1 + d0, each nibble weighing its binary value (R122). -/
def magnitude (w : FrameWord) : Nat := 1000 * digit3 w + 100 * digit2 w + 10 * digit1 w + digit0 w

/-- 1000.0 (R124). -/
def const1000 : Binary64 := 0x408F400000000000#64

/-- 100.0 (R124). -/
def const100 : Binary64 := 0x4059000000000000#64

/-- 10.0 (R124). -/
def const10 : Binary64 := 0x4024000000000000#64

/-- C_NANO, the binary64 nearest 1e-9 (R127). -/
def constNano : Binary64 := 0x3E112E0BE826D695#64

/-- C_MEGA, 1e6 (R127). -/
def constMega : Binary64 := 0x412E848000000000#64

/-- C_KILO, 1e3 (R127). -/
def constKilo : Binary64 := 0x408F400000000000#64

/-- C_MILLI, the binary64 nearest 1e-3 (R127). -/
def constMilli : Binary64 := 0x3F50624DD2F1A9FC#64

/-- C_MICRO, the binary64 nearest 1e-6 (R127). -/
def constMicro : Binary64 := 0x3EB0C6F7A0B5ED8D#64

/-- The divide stage (R124). -/
def divideStage (d : DivSel) (v : Binary64) : Binary64 :=
  match d with
  | .none => v
  | .div10 => fdiv v const10
  | .div100 => fdiv v const100
  | .div1000 => fdiv v const1000

/-- The sign stage (R125). -/
def signStage (n : Bool) (v : Binary64) : Binary64 := if n then fneg v else v

/-- The multiply stage (R127). -/
def multiplyStage (p : PrefixSel) (v : Binary64) : Binary64 :=
  match p with
  | .none => v
  | .nano => fmul v constNano
  | .mega => fmul v constMega
  | .kilo => fmul v constKilo
  | .milli => fmul v constMilli
  | .micro => fmul v constMicro

/-- The value of a frame that is not the sentinel: magnitude, divisor, sign, prefix, in this order (R128). -/
def scaledValue (w : FrameWord) : Binary64 :=
  multiplyStage (prefixSel w) (signStage (neg w) (divideStage (divSel w) (f64 (magnitude w))))

/-- decode_value (R120): the sentinel gives +inf and skips the other stages (R121). -/
def decodeValue (w : FrameWord) : Binary64 := if overload w then posInf else scaledValue w

/-- DECODE_VALUE of a frame operand: responds Value, or faults NoFrame where there is no frame (R120, R204). -/
def decodeValueOf (f : Option FrameWord) (s : State) : Result :=
  match f with
  | some w => .next (respond s.issuer (.value (decodeValue w)) s)
  | none => .next (takeFault .noFrame s.issuer s)

/-- DECODE_VALUE RD (R120); the frame operand is ignored (R70). -/
def execDecodeValueRd (_w : FrameWord) (s : State) : Result := decodeValueOf (frameOfRd s) s

/-- DECODE_VALUE IMM (R120). -/
def execDecodeValueImm (w : FrameWord) (s : State) : Result := decodeValueOf (frameOfImm w) s

end Sys2Proof.Machine
end

