-- ==== Sys2Proof/Machine/Measurement.lean ====
section
/-! DEFINITION. The measurement encoder: DECODE, and one evaluation of the decoder's ports (R28, R180–R186). -/

namespace Sys2Proof.Machine

/-- `decode(F)`: the Measurement of a frame (R180). -/
def measurement (w : FrameWord) : Response := .measurement (decodeValue w) (decodeUnit w)

/-- DECODE of a frame operand: responds Measurement, or faults NoFrame where there is no frame (R181, R204). -/
def decodeOf (f : Option FrameWord) (s : State) : Result :=
  match f with
  | some w => .next (respond s.issuer (measurement w) s)
  | none => .next (takeFault .noFrame s.issuer s)

/-- DECODE RD (R181); the frame operand is ignored (R70). -/
def execDecodeRd (_w : FrameWord) (s : State) : Result := decodeOf (frameOfRd s) s

/-- DECODE IMM (R181). -/
def execDecodeImm (w : FrameWord) (s : State) : Result := decodeOf (frameOfImm w) s

/-- One evaluation of the FrameDecoder with w on frame_in: every port is a function of w (R28). The selector
ports show their own chains on the sentinel too (R121). -/
def decoderPorts (w : FrameWord) : DecoderView where
  frameIn := w
  magnitude := magnitude w
  value := decodeValue w
  overload := BitVec.ofBool (overload w)
  divSel := divSelCode (divSel w)
  neg := BitVec.ofBool (neg w)
  prefixSel := prefixSelCode (prefixSel w)
  baseUnit := baseUnitCode (baseUnit w)
  suffix := suffixCode (suffixSel w)
  unitLen := unitLen (decodeUnit w)
  unitBytes := unitBytes (decodeUnit w)

end Sys2Proof.Machine
end

