-- ==== Sys2Proof/Machine/FrameRows.lean ====
section
/-! DEFINITION. The FRAME64 rows (R75, R76): a row, observed with frame w on frame_in, drives the port values of its
`result` where it is the first row of its group whose condition holds; a row that is not decides nothing (R13).
All other ports show their own functions of w in the same evaluation (R28). Nothing but the observation is written
(log entries 1, 2 and 15). -/

namespace Sys2Proof.Machine

/-- What is seen at the ports when row k of group g is observed on frame w: what the row drives, if its group selects
it (R13, R75). -/
def rowView (g : RowGroup) (k : Nat) (w : FrameWord) (drive : DecoderView → DecoderView) : DecoderView :=
  if selectedPriority g w = k then drive (decoderPorts w) else decoderPorts w

/-- The observation of a row: it goes into portView, and nothing else changes (R23, R216). -/
def observeRow (g : RowGroup) (k : Nat) (w : FrameWord) (drive : DecoderView → DecoderView) (s : State) : Result :=
  .next { s with portView := some (rowView g k w drive) }

/-- The string ports driven with a unit string (R154). -/
def driveString (u : UnitString) (v : DecoderView) : DecoderView :=
  { v with unitLen := unitLen u, unitBytes := unitBytes u }

/-- OVERLOAD.SENTINEL: overload = 1, value = +inf (R121). -/
def execOverloadSentinel (w : FrameWord) (s : State) : Result :=
  observeRow .overload 1 w (fun v => { v with overload := 1, value := posInf }) s

/-- OVERLOAD.NONE: overload = 0 (R121). -/
def execOverloadNone (w : FrameWord) (s : State) : Result :=
  observeRow .overload 2 w (fun v => { v with overload := 0 }) s

/-- DIVISOR.DIV1000: div_sel = 3 (R123). -/
def execDivisorDiv1000 (w : FrameWord) (s : State) : Result :=
  observeRow .divisor 1 w (fun v => { v with divSel := 3 }) s

/-- DIVISOR.DIV100: div_sel = 2 (R123). -/
def execDivisorDiv100 (w : FrameWord) (s : State) : Result :=
  observeRow .divisor 2 w (fun v => { v with divSel := 2 }) s

/-- DIVISOR.DIV10: div_sel = 1 (R123). -/
def execDivisorDiv10 (w : FrameWord) (s : State) : Result :=
  observeRow .divisor 3 w (fun v => { v with divSel := 1 }) s

/-- DIVISOR.NONE: div_sel = 0 (R123). -/
def execDivisorNone (w : FrameWord) (s : State) : Result :=
  observeRow .divisor 4 w (fun v => { v with divSel := 0 }) s

/-- SIGN.NEG: neg = 1 (R125). -/
def execSignNeg (w : FrameWord) (s : State) : Result :=
  observeRow .sign 1 w (fun v => { v with neg := 1 }) s

/-- SIGN.POS: neg = 0 (R125). -/
def execSignPos (w : FrameWord) (s : State) : Result :=
  observeRow .sign 2 w (fun v => { v with neg := 0 }) s

/-- PREFIX.NANO: prefix_sel = 1 (R126). -/
def execPrefixNano (w : FrameWord) (s : State) : Result :=
  observeRow .metricPrefix 1 w (fun v => { v with prefixSel := 1 }) s

/-- PREFIX.MEGA: prefix_sel = 2 (R126). -/
def execPrefixMega (w : FrameWord) (s : State) : Result :=
  observeRow .metricPrefix 2 w (fun v => { v with prefixSel := 2 }) s

/-- PREFIX.KILO: prefix_sel = 3 (R126). -/
def execPrefixKilo (w : FrameWord) (s : State) : Result :=
  observeRow .metricPrefix 3 w (fun v => { v with prefixSel := 3 }) s

/-- PREFIX.MILLI: prefix_sel = 4 (R126). -/
def execPrefixMilli (w : FrameWord) (s : State) : Result :=
  observeRow .metricPrefix 4 w (fun v => { v with prefixSel := 4 }) s

/-- PREFIX.MICRO: prefix_sel = 5 (R126). -/
def execPrefixMicro (w : FrameWord) (s : State) : Result :=
  observeRow .metricPrefix 5 w (fun v => { v with prefixSel := 5 }) s

/-- PREFIX.NONE: prefix_sel = 0 (R126). -/
def execPrefixNone (w : FrameWord) (s : State) : Result :=
  observeRow .metricPrefix 6 w (fun v => { v with prefixSel := 0 }) s

/-- BASE_UNIT.VDIODE: base_unit = 0 and its string (R150, R151). -/
def execBaseUnitVdiode (w : FrameWord) (s : State) : Result :=
  observeRow .baseUnit 1 w (fun v => driveString (['V', 'd', 'i', 'o', 'd', 'e'] ++ suffixString (suffixSel w)) { v with baseUnit := 0 }) s

/-- BASE_UNIT.V: base_unit = 1 and its string (R150, R151). -/
def execBaseUnitV (w : FrameWord) (s : State) : Result :=
  observeRow .baseUnit 2 w (fun v => driveString (['V'] ++ suffixString (suffixSel w)) { v with baseUnit := 1 }) s

/-- BASE_UNIT.A: base_unit = 2 and its string (R150, R151). -/
def execBaseUnitA (w : FrameWord) (s : State) : Result :=
  observeRow .baseUnit 3 w (fun v => driveString (['A'] ++ suffixString (suffixSel w)) { v with baseUnit := 2 }) s

/-- BASE_UNIT.OHM: base_unit = 3 and its string (R150, R151). -/
def execBaseUnitOhm (w : FrameWord) (s : State) : Result :=
  observeRow .baseUnit 4 w (fun v => driveString (['\u03A9'] ++ suffixString (suffixSel w)) { v with baseUnit := 3 }) s

/-- BASE_UNIT.DEGF: base_unit = 4 and its string (R150, R151). -/
def execBaseUnitDegF (w : FrameWord) (s : State) : Result :=
  observeRow .baseUnit 5 w (fun v => driveString (['\u00B0', 'F'] ++ suffixString (suffixSel w)) { v with baseUnit := 4 }) s

/-- BASE_UNIT.DEGC: base_unit = 5 and its string (R150, R151). -/
def execBaseUnitDegC (w : FrameWord) (s : State) : Result :=
  observeRow .baseUnit 6 w (fun v => driveString (['\u00B0', 'C'] ++ suffixString (suffixSel w)) { v with baseUnit := 5 }) s

/-- BASE_UNIT.FARAD: base_unit = 6 and its string (R150, R151). -/
def execBaseUnitFarad (w : FrameWord) (s : State) : Result :=
  observeRow .baseUnit 7 w (fun v => driveString (['F'] ++ suffixString (suffixSel w)) { v with baseUnit := 6 }) s

/-- BASE_UNIT.HZ: base_unit = 7 and its string (R150, R151). -/
def execBaseUnitHz (w : FrameWord) (s : State) : Result :=
  observeRow .baseUnit 8 w (fun v => driveString (['H', 'z'] ++ suffixString (suffixSel w)) { v with baseUnit := 7 }) s

/-- BASE_UNIT.HFE: base_unit = 8 and its string (R150, R151). -/
def execBaseUnitHfe (w : FrameWord) (s : State) : Result :=
  observeRow .baseUnit 9 w (fun v => driveString (['h', 'F', 'E'] ++ suffixString (suffixSel w)) { v with baseUnit := 8 }) s

/-- BASE_UNIT.UNKNOWN: base_unit = 9 and its string (R150, R151). -/
def execBaseUnitUnknown (w : FrameWord) (s : State) : Result :=
  observeRow .baseUnit 10 w (fun v => driveString (['u', 'n', 'k', 'n', 'o', 'w', 'n'] ++ suffixString (suffixSel w)) { v with baseUnit := 9 }) s

/-- SUFFIX.AC: suffix = 1 and its string (R152). -/
def execSuffixAc (w : FrameWord) (s : State) : Result :=
  observeRow .suffix 1 w (fun v => driveString (baseUnitString (baseUnit w) ++ ['A', 'C']) { v with suffix := 1 }) s

/-- SUFFIX.DC: suffix = 2 and its string (R152). -/
def execSuffixDc (w : FrameWord) (s : State) : Result :=
  observeRow .suffix 2 w (fun v => driveString (baseUnitString (baseUnit w) ++ ['D', 'C']) { v with suffix := 2 }) s

/-- SUFFIX.NONE: suffix = 0 and its string (R152). -/
def execSuffixNone (w : FrameWord) (s : State) : Result :=
  observeRow .suffix 3 w (fun v => driveString (baseUnitString (baseUnit w) ++ []) { v with suffix := 0 }) s

/-- DIGITS: m = 1000*d3 + 100*d2 + 10*d1 + d0 (R76, R122). -/
def execDigits (w : FrameWord) (s : State) : Result :=
  observeRow .digits 1 w (fun v => { v with magnitude := 1000 * digit3 w + 100 * digit2 w + 10 * digit1 w + digit0 w }) s

end Sys2Proof.Machine
end

