-- ==== Sys2Proof/Machine/Reserved.lean ====
section
/-! DEFINITION. The reserved command codes (R72, R207): refused, with the mark set, no response, and the issuing host
stopped. -/

namespace Sys2Proof.Machine

/-- RESERVED, cmd 0x4 (R72, R207). -/
def execReserved4 (_w : FrameWord) (s : State) : Result := .next (takeRefusal s.issuer s)

/-- RESERVED, cmd 0x8 to 0xF (R72, R207). -/
def execReserved8 (_low : BitVec 3) (_w : FrameWord) (s : State) : Result := .next (takeRefusal s.issuer s)

end Sys2Proof.Machine
end

