-- ==== Sys2Proof/Machine/Dispatch.lean ====
section
/-! DEFINITION. exec: one arm per constructor of Instr, each one call of that instruction's meaning. -/

namespace Sys2Proof.Machine

def exec (i : Instr) (s : State) : Host.Outcome State Fault Refusal :=
  match i with
  | .nextFrame w => Sys2Proof.Machine.execNextFrame w s
  | .decodeRd w => Sys2Proof.Machine.execDecodeRd w s
  | .decodeValueRd w => Sys2Proof.Machine.execDecodeValueRd w s
  | .decodeUnitRd w => Sys2Proof.Machine.execDecodeUnitRd w s
  | .decodeImm w => Sys2Proof.Machine.execDecodeImm w s
  | .decodeValueImm w => Sys2Proof.Machine.execDecodeValueImm w s
  | .decodeUnitImm w => Sys2Proof.Machine.execDecodeUnitImm w s
  | .reserved4 w => Sys2Proof.Machine.execReserved4 w s
  | .reserved8 low w => Sys2Proof.Machine.execReserved8 low w s
  | .overloadSentinel w => Sys2Proof.Machine.execOverloadSentinel w s
  | .overloadNone w => Sys2Proof.Machine.execOverloadNone w s
  | .divisorDiv1000 w => Sys2Proof.Machine.execDivisorDiv1000 w s
  | .divisorDiv100 w => Sys2Proof.Machine.execDivisorDiv100 w s
  | .divisorDiv10 w => Sys2Proof.Machine.execDivisorDiv10 w s
  | .divisorNone w => Sys2Proof.Machine.execDivisorNone w s
  | .signNeg w => Sys2Proof.Machine.execSignNeg w s
  | .signPos w => Sys2Proof.Machine.execSignPos w s
  | .prefixNano w => Sys2Proof.Machine.execPrefixNano w s
  | .prefixMega w => Sys2Proof.Machine.execPrefixMega w s
  | .prefixKilo w => Sys2Proof.Machine.execPrefixKilo w s
  | .prefixMilli w => Sys2Proof.Machine.execPrefixMilli w s
  | .prefixMicro w => Sys2Proof.Machine.execPrefixMicro w s
  | .prefixNone w => Sys2Proof.Machine.execPrefixNone w s
  | .baseUnitVdiode w => Sys2Proof.Machine.execBaseUnitVdiode w s
  | .baseUnitV w => Sys2Proof.Machine.execBaseUnitV w s
  | .baseUnitA w => Sys2Proof.Machine.execBaseUnitA w s
  | .baseUnitOhm w => Sys2Proof.Machine.execBaseUnitOhm w s
  | .baseUnitDegF w => Sys2Proof.Machine.execBaseUnitDegF w s
  | .baseUnitDegC w => Sys2Proof.Machine.execBaseUnitDegC w s
  | .baseUnitFarad w => Sys2Proof.Machine.execBaseUnitFarad w s
  | .baseUnitHz w => Sys2Proof.Machine.execBaseUnitHz w s
  | .baseUnitHfe w => Sys2Proof.Machine.execBaseUnitHfe w s
  | .baseUnitUnknown w => Sys2Proof.Machine.execBaseUnitUnknown w s
  | .suffixAc w => Sys2Proof.Machine.execSuffixAc w s
  | .suffixDc w => Sys2Proof.Machine.execSuffixDc w s
  | .suffixNone w => Sys2Proof.Machine.execSuffixNone w s
  | .digits w => Sys2Proof.Machine.execDigits w s

end Sys2Proof.Machine
end

