-- ==== Sys2Proof/Machine/Fetch.lean ====
section
/-! DEFINITION. Taking the next turn: which agent moves, and the instruction a command or a probe spells (log entry 3). -/

namespace Sys2Proof.Machine

/-- What the next turn asks of the step: an instruction to run, or an outcome that needs none. -/
inductive Action where
  | run (i : Instr) (s : State)
  | settled (r : Result)

/-- The next turn. A host that is blocked or stopped issues nothing: its turn passes (R100, R204, R205, R207; log
entry 5). With no turn left the machine idles. -/
def nextAction (s : State) : Action :=
  match s.schedule with
  | [] => .settled (.next s)
  | .command h c :: rest =>
    if canMove h s then .run (decode (.command c)) { s with schedule := rest, issuer := h }
    else .settled (.next { s with schedule := rest })
  | .probe w g :: rest => .run (decode (.frame g w)) { s with schedule := rest }
  | .reader :: rest => .settled (readerStep { s with schedule := rest })
  | .reset :: rest => .settled (.next (resetCore { s with schedule := rest }))

/-- The turn in which a table row's word is run: a command issued by a host that can move, or a probe of a frame's
headline row; the words decodeTableWord refuses are issued as the command word of their low 68 bits (log entry 11). -/
def turnOfTableWord (nbits w : Nat) (s : State) : Turn :=
  match rawOfBytes (tableBytes nbits w) with
  | .ok (.frame g f) => .probe f g
  | .ok (.command c) => .command (freeHost s) c
  | .error _ => .command (freeHost s) (BitVec.ofNat 68 w)

end Sys2Proof.Machine
end

