-- ==== Sys2Proof/Machine/Step.lean ====
section
/-! DEFINITION. One step of the machine: the next turn of the schedule (R20, R240). -/

namespace Sys2Proof.Machine

/-- One step: the next turn is taken, and the instruction it spells is run. -/
def step (s : State) : Host.Outcome State Fault Refusal :=
  match nextAction s with
  | .run i t => exec i t
  | .settled r => r

/-- s with a table row's word as the very next turn: a program is a list of turns handed to the machine from outside
(log entry 3), so this stands for that hand-over. -/
def State.withFetchWord (s : State) (nbits w : Nat) : State :=
  { s with schedule := turnOfTableWord nbits w s :: s.schedule }

end Sys2Proof.Machine
end

