-- ==== Sys2Proof/Machine/Assembler.lean ====
section
/-! DEFINITION. The assembler syntax of host programs and the pseudo-instruction READ_DECODE (R73, R74). It is outside
the core: it turns a line into the command words a host issues. The points R73 leaves open are in log entry 17. -/

namespace Sys2Proof.Machine

/-- The frame source of a line: `RD`, or a bracketed frame literal, byte 0 first (R73). -/
inductive AsmOperand where
  | rd
  | literal (bytes : List Byte)
  deriving DecidableEq, Repr

/-- A line's instruction (R73), READ_DECODE among them (R74). -/
inductive AsmLine where
  | nextFrame
  | decode (o : AsmOperand)
  | decodeValue (o : AsmOperand)
  | decodeUnit (o : AsmOperand)
  | readDecode
  deriving DecidableEq, Repr

/-- The command word of an operation cmd[1:0] with a frame source: a literal selects the IMM form (R70, R73). -/
def asmCommand (op : BitVec 2) : AsmOperand → CmdWord
  | .rd => commandWord (0#2 ++ op) 0
  | .literal bs => commandWord (1#2 ++ op) (packBytes 64 bs)

/-- The command words of a line, in order (R73, R74). -/
def asmWords : AsmLine → List CmdWord
  | .nextFrame => [commandWord 0x0#4 0]
  | .decode o => [asmCommand 1 o]
  | .decodeValue o => [asmCommand 2 o]
  | .decodeUnit o => [asmCommand 3 o]
  | .readDecode => [commandWord 0x0#4 0, asmCommand 1 .rd]

/-- The turns in which host h issues a line (R73, R74). -/
def asmTurns (h : HostId) (l : AsmLine) : List Turn := (asmWords l).map (Turn.command h)

/-! ## The text of a line -/

/-- A token: a word of letters, digits and `_`, or one of the marks `[`, `]`, `,`, `:`. -/
inductive AsmToken where
  | word (cs : List Char)
  | mark (c : Char)
  deriving DecidableEq, Repr

/-- A character of a word. -/
def isWordChar (c : Char) : Bool :=
  (65 ≤ c.toNat && c.toNat ≤ 90) || (97 ≤ c.toNat && c.toNat ≤ 122) || (48 ≤ c.toNat && c.toNat ≤ 57) ||
    c.toNat == 95

/-- The word gathered so far, if any, before the tokens that follow. -/
def withWord (gathered : List Char) (ts : List AsmToken) : List AsmToken :=
  if gathered = [] then ts else .word gathered :: ts

/-- The tokens of a text, `;` starting a comment (R73); none where a character belongs to no token. -/
def asmTokens : List Char → List Char → Option (List AsmToken)
  | [], gathered => some (withWord gathered [])
  | c :: cs, gathered =>
    if c = ';' then some (withWord gathered [])
    else if isWordChar c then asmTokens cs (gathered ++ [c])
    else if c = ' ' ∨ c = '\t' then (asmTokens cs []).map (withWord gathered)
    else if c = '[' ∨ c = ']' ∨ c = ',' ∨ c = ':' then
      (asmTokens cs []).map fun ts => withWord gathered (.mark c :: ts)
    else none

/-- The value of a hexadecimal digit of either case. -/
def hexDigit (c : Char) : Option Nat :=
  if 48 ≤ c.toNat ∧ c.toNat ≤ 57 then some (c.toNat - 48)
  else if 65 ≤ c.toNat ∧ c.toNat ≤ 70 then some (c.toNat - 55)
  else if 97 ≤ c.toNat ∧ c.toNat ≤ 102 then some (c.toNat - 87)
  else none

/-- Decimal digits read onto a number. -/
def decimalOnto : List Char → Nat → Option Nat
  | [], n => some n
  | c :: cs, n => if 48 ≤ c.toNat ∧ c.toNat ≤ 57 then decimalOnto cs (10 * n + (c.toNat - 48)) else none

/-- A decimal number of at least one digit. -/
def decimal (cs : List Char) : Option Nat := if cs = [] then none else decimalOnto cs 0

/-- A byte of a frame literal: `0xNN`, or decimal 0 to 255 (R73). -/
def asmByte : List Char → Option Byte
  | ['0', 'x', a, b] =>
    match hexDigit a, hexDigit b with
    | some x, some y => some (BitVec.ofNat 8 (16 * x + y))
    | _, _ => none
  | cs =>
    match decimal cs with
    | some n => if n < 256 then some (BitVec.ofNat 8 n) else none
    | none => none

/-- The bytes of a frame literal after its `[`: commas between them, `]` and nothing more at the end. -/
def asmBytes : List AsmToken → Option (List Byte)
  | .word cs :: .mark m :: ts =>
    match asmByte cs with
    | none => none
    | some b =>
      if m = ']' then (if ts = [] then some [b] else none)
      else if m = ',' then (asmBytes ts).map (b :: ·)
      else none
  | _ => none

/-- A frame source (R73): a literal has exactly 8 bytes. -/
def asmOperand : List AsmToken → Option AsmOperand
  | [.word ['R', 'D']] => some .rd
  | .mark '[' :: ts =>
    match asmBytes ts with
    | some bs => if bs.length = Config.frameBytes then some (.literal bs) else none
    | none => none
  | _ => none

/-- The instruction of a line's tokens (R73, R74). -/
def asmInstruction : List AsmToken → Option AsmLine
  | .word cs :: ts =>
    if cs = ['N', 'E', 'X', 'T', '_', 'F', 'R', 'A', 'M', 'E'] then (if ts = [] then some .nextFrame else none)
    else if cs = ['R', 'E', 'A', 'D', '_', 'D', 'E', 'C', 'O', 'D', 'E'] then
      (if ts = [] then some .readDecode else none)
    else if cs = ['D', 'E', 'C', 'O', 'D', 'E'] then (asmOperand ts).map .decode
    else if cs = ['D', 'E', 'C', 'O', 'D', 'E', '_', 'V', 'A', 'L', 'U', 'E'] then
      (asmOperand ts).map .decodeValue
    else if cs = ['D', 'E', 'C', 'O', 'D', 'E', '_', 'U', 'N', 'I', 'T'] then (asmOperand ts).map .decodeUnit
    else none
  | _ => none

/-- The turns of a line's tokens: a prefix `h<n>:` names the host, h1 without one; no token, no turn (R73). -/
def asmTokensTurns : List AsmToken → Option (List Turn)
  | [] => some []
  | .word ('h' :: ds) :: .mark ':' :: ts =>
    match decimal ds with
    | some h => (asmInstruction ts).map (asmTurns h)
    | none => none
  | ts => (asmInstruction ts).map (asmTurns 1)

/-- The turns of one line of a host program, or none where it is not of the syntax of R73. -/
def assembleLine (text : List Char) : Option (List Turn) := (asmTokens text []).bind asmTokensTurns

end Sys2Proof.Machine
end

