-- ==== Sys2Proof/WellFormed.lean ====
section
/-! DEFINITION. Well-formed instructions. Every command word spells one (R71, R72). A FRAME64 row stands for its
frame only where it is the one its group selects: its own condition holds and no earlier row's does (R13, R75).
The conditions are written from R121, R123, R125, R126, R150 and R152, not from the table's masks. -/

namespace Sys2Proof

/-- "byte[i] bit m": some bit of mask m is set in F[i] (R9). -/
def byteHas (w : FrameWord) (i : Nat) (m : Byte) : Bool := frameByte w i &&& m != 0#8

/-- The sentinel bytes of R121. -/
def sentinelBytes (w : FrameWord) : Bool := frameByte w 1 == 0x4C#8 && frameByte w 2 == 0x4F#8

/-- The five bits of R158, all set. -/
def ohmBits (w : FrameWord) : Bool := frameByte w 7 &&& 0x3D#8 == 0x3D#8

/-- None of the listed conditions holds. -/
def noneOf (cs : List Bool) : Bool := cs.all (!·)

/-- The conditions of R126, in order. -/
def prefixConditions (w : FrameWord) : List Bool :=
  [byteHas w 4 0x02#8, byteHas w 5 0x10#8, byteHas w 5 0x20#8, byteHas w 5 0x40#8, byteHas w 5 0x80#8]

/-- The conditions of R150, in order. -/
def baseUnitConditions (w : FrameWord) : List Bool :=
  [byteHas w 5 0x04#8, byteHas w 6 0x80#8, byteHas w 6 0x40#8, ohmBits w, byteHas w 6 0x01#8,
   byteHas w 6 0x02#8, byteHas w 6 0x04#8, byteHas w 6 0x08#8, byteHas w 6 0x10#8]

/-- Condition k of a list, from 0, holds and no earlier one does. -/
def onlyFirst (cs : List Bool) (k : Nat) : Bool := cs.getD k false && noneOf (cs.take k)

/-- A command is always well formed; a FRAME64 row is where its group selects it. -/
def WellFormed : Instr → Bool
  | .nextFrame _ | .decodeRd _ | .decodeValueRd _ | .decodeUnitRd _ => true
  | .decodeImm _ | .decodeValueImm _ | .decodeUnitImm _ => true
  | .reserved4 _ | .reserved8 _ _ => true
  | .overloadSentinel w => sentinelBytes w
  | .overloadNone w => !sentinelBytes w
  | .divisorDiv1000 w => byteHas w 0 0x01#8
  | .divisorDiv100 w => byteHas w 0 0x02#8 && !byteHas w 0 0x01#8
  | .divisorDiv10 w => byteHas w 0 0x04#8 && !byteHas w 0 0x02#8 && !byteHas w 0 0x01#8
  | .divisorNone w => !byteHas w 0 0x04#8 && !byteHas w 0 0x02#8 && !byteHas w 0 0x01#8
  | .signNeg w => byteHas w 0 0x40#8
  | .signPos w => !byteHas w 0 0x40#8
  | .prefixNano w => onlyFirst (prefixConditions w) 0
  | .prefixMega w => onlyFirst (prefixConditions w) 1
  | .prefixKilo w => onlyFirst (prefixConditions w) 2
  | .prefixMilli w => onlyFirst (prefixConditions w) 3
  | .prefixMicro w => onlyFirst (prefixConditions w) 4
  | .prefixNone w => noneOf (prefixConditions w)
  | .baseUnitVdiode w => onlyFirst (baseUnitConditions w) 0
  | .baseUnitV w => onlyFirst (baseUnitConditions w) 1
  | .baseUnitA w => onlyFirst (baseUnitConditions w) 2
  | .baseUnitOhm w => onlyFirst (baseUnitConditions w) 3
  | .baseUnitDegF w => onlyFirst (baseUnitConditions w) 4
  | .baseUnitDegC w => onlyFirst (baseUnitConditions w) 5
  | .baseUnitFarad w => onlyFirst (baseUnitConditions w) 6
  | .baseUnitHz w => onlyFirst (baseUnitConditions w) 7
  | .baseUnitHfe w => onlyFirst (baseUnitConditions w) 8
  | .baseUnitUnknown w => noneOf (baseUnitConditions w)
  | .suffixAc w => byteHas w 3 0x08#8
  | .suffixDc w => byteHas w 3 0x10#8 && !byteHas w 3 0x08#8
  | .suffixNone w => !byteHas w 3 0x10#8 && !byteHas w 3 0x08#8
  | .digits _ => true

end Sys2Proof
end

