-- ==== Sys2Proof/Safety.lean ====
section
/-! DEFINITION. The terms the statements use: the invariant of the machine, good runs, and what a part of the machine
is. -/

namespace Sys2Proof.Machine

/-- n steps, stopping at the first fault or refusal: Host.Core.run of this machine (Laws/Step.lean). -/
def runSteps : Nat → State → Result
  | 0, s => .next s
  | n + 1, s =>
    match step s with
    | .next t => runSteps n t
    | .fault r => .fault r
    | .refused r => .refused r

/-- rd_frame holds a value exactly while rd_status = OK (R25). -/
abbrev FrameHeldWhenOk (s : State) : Prop := s.rdFrame.isSome = true ↔ s.rdStatus = .ok

/-- rd_buf holds rd_count bytes, fewer than 8, and none outside a call (R26). -/
abbrev BufferCounted (s : State) : Prop :=
  s.rdBuf.length = s.rdCount ∧ s.rdCount < 8 ∧ (s.rdStatus ≠ .busy → s.rdCount = 0)

/-- While BUSY, rd_owner names a host that is blocked (R27, R100). -/
abbrev OwnerWaits (s : State) : Prop := s.rdStatus = .busy → ∃ h ∈ s.waiting, s.rdOwner = some h

/-- The lists of blocked and of stopped hosts are in increasing order without repeats, and no host is in both. -/
abbrev HostListsKept (s : State) : Prop :=
  s.waiting.Pairwise (· < ·) ∧ s.halted.Pairwise (· < ·) ∧ ∀ h ∈ s.waiting, h ∉ s.halted

/-- The host a recorded fault is charged to. -/
def RecordedFault.host : RecordedFault → HostId
  | .noFrame h => h
  | .concurrentRead h => h

/-- Every recorded fault is charged to a host with no further step, and a refusal stopped some host (R204–R207). -/
abbrev MarksStopHosts (s : State) : Prop :=
  (∀ f ∈ s.faults, f.host ∈ s.halted) ∧ (s.refused = true → s.halted ≠ [])

/-- What was observed at the decoder's ports is one evaluation of it: every port a function of frame_in (R28). -/
abbrev ViewIsEvaluation (s : State) : Prop := ∀ v ∈ s.portView, v = decoderPorts v.frameIn

/-- The invariant of the machine: every step keeps it. -/
structure MachineInv (s : State) : Prop where
  frame : FrameHeldWhenOk s
  buffer : BufferCounted s
  owner : OwnerWaits s
  hosts : HostListsKept s
  marks : MarksStopHosts s
  view : ViewIsEvaluation s

/-- A state of a good run: no fault recorded, nothing refused (R31, R206). -/
abbrev GoodSoFar (s : State) : Prop := s.faults = [] ∧ s.refused = false

/-- The FrameReader's registers and its stream are the same (R24–R27). -/
abbrev SameReader (s t : State) : Prop :=
  t.rdStatus = s.rdStatus ∧ t.rdFrame = s.rdFrame ∧ t.rdBuf = s.rdBuf ∧ t.rdCount = s.rdCount ∧
    t.rdOwner = s.rdOwner ∧ t.stream = s.stream

/-- The host a turn names, if any. -/
def Turn.host : Turn → Option HostId
  | .command h _ => some h
  | _ => none

/-- Every host the state names is one of h1..hN, for N = N_HOSTS (R8, R20, log entry 6). -/
structure HostsWithin (n : Nat) (s : State) : Prop where
  schedule : ∀ u ∈ s.schedule, ∀ h ∈ Turn.host u, 1 ≤ h ∧ h ≤ n
  issuer : 1 ≤ s.issuer ∧ s.issuer ≤ n
  owner : ∀ h ∈ s.rdOwner, 1 ≤ h ∧ h ≤ n
  waiting : ∀ h ∈ s.waiting, 1 ≤ h ∧ h ≤ n
  halted : ∀ h ∈ s.halted, 1 ≤ h ∧ h ≤ n
  log : ∀ e ∈ s.log, 1 ≤ e.1 ∧ e.1 ≤ n
  faults : ∀ f ∈ s.faults, 1 ≤ f.host ∧ f.host ≤ n

/-- All four digit nibbles are decimal digits (`95_test_vectors.md` section 7). -/
abbrev BcdValid (w : FrameWord) : Prop := digit3 w ≤ 9 ∧ digit2 w ≤ 9 ∧ digit1 w ≤ 9 ∧ digit0 w ≤ 9

/-- A binary64 pattern that is neither an infinity nor a NaN. -/
abbrev IsFinite (v : Binary64) : Prop := expField v < 2047

/-- The low 63 bits of a pattern, which order the magnitudes (R45). -/
def lowBits (v : Binary64) : Nat := (v.setWidth 63).toNat

end Sys2Proof.Machine
end

