-- ==== Sys2Proof/Certificates/Slice0/Obligations.lean ====
section
/-! DEFINITION. The statements for the provers, from the spec's numbered rules. Each docstring names the rules. -/

open Sys2Proof Sys2Proof.Machine

/-! ## Reset and the step -/

/-- R32, R230: the values the spec gives for reset, at State.reset and after a reset turn in any state; a reset turn
does not touch the stream. That a reset turn clears recorded faults and the refusal mark is the model's reading of R230
against R206 (log entry 7); the turn and the empty list for rd_buf are the model's (log entries 3 and 14). -/
def Obligations.ResetLeavesStatedValues : Prop :=
  (State.reset.rdStatus = .none ∧ State.reset.rdFrame = none ∧ State.reset.rdBuf = [] ∧ State.reset.rdCount = 0 ∧
    State.reset.rdOwner = none ∧ State.reset.log = [] ∧ State.reset.faults = [] ∧ State.reset.refused = false) ∧
  ∀ (s : State) (rest : List Turn), s.schedule = .reset :: rest →
    ∃ t, step s = .next t ∧ t.rdStatus = .none ∧ t.rdFrame = none ∧ t.rdBuf = [] ∧ t.rdCount = 0 ∧
      t.rdOwner = none ∧ t.log = [] ∧ t.faults = [] ∧ t.refused = false ∧ t.stream = s.stream

/-- R232 and the model's reading of it (log entry 7): a reset during a call gives the owner no response, in this step or in
however many FrameReader turns follow it, since the core is no longer BUSY; the partial bytes are gone, no event is taken,
and the owner stays blocked. The turns are the model's (log entry 3). -/
def Obligations.ResetDuringCallGivesNoResponse : Prop :=
  ∀ (s : State) (h : HostId) (n : Nat) (rest : List Turn),
    s.rdStatus = .busy → s.rdOwner = some h → h ∈ s.waiting →
    s.schedule = .reset :: (List.replicate n .reader ++ rest) →
    ∃ u, runSteps (n + 1) s = .next u ∧ u.rdStatus = .none ∧ u.rdBuf = [] ∧ u.rdCount = 0 ∧ u.rdFrame = none ∧
      u.log = [] ∧ u.stream = s.stream ∧ h ∈ u.waiting ∧ canMove h u = false ∧ u.schedule = rest

/-- R70, R71 and the model's schedule (log entries 3 and 10): where the next turn is a command of a host that is
neither blocked nor stopped, the step is exec of the decoded instruction, with the turn taken and the host as issuer. -/
def Obligations.StepRunsDecodedCommand : Prop :=
  ∀ (s : State) (h : HostId) (c : CmdWord) (rest : List Turn),
    s.schedule = .command h c :: rest → h ∉ s.waiting → h ∉ s.halted →
    step s = exec (decodeCommand c) { s with schedule := rest, issuer := h }

/-- R75 and the model's probe turn (log entry 1): a probe runs the row its group selects, with the turn taken. -/
def Obligations.StepRunsProbedRow : Prop :=
  ∀ (s : State) (w : FrameWord) (g : RowGroup) (rest : List Turn),
    s.schedule = .probe w g :: rest → step s = exec (decodeRow g w) { s with schedule := rest }

/-- R100, R204, R205, R207 by the model's log entry 5: a blocked or stopped host issues nothing; its turn passes. -/
def Obligations.BlockedOrStoppedHostIssuesNothing : Prop :=
  ∀ (s : State) (h : HostId) (c : CmdWord) (rest : List Turn),
    s.schedule = .command h c :: rest → (h ∈ s.waiting ∨ h ∈ s.halted) →
    step s = .next { s with schedule := rest }

/-- R101, R102, R108: with no event offered, or outside a call, the FrameReader has no step: its turn passes and every
register, the stream and the log are as they were, however often it is given the turn. The turns are the model's (log
entry 3). -/
def Obligations.ReaderWaitsForEvents : Prop :=
  ∀ (s : State) (n : Nat), (s.stream = [] ∨ s.rdStatus ≠ .busy) → s.schedule = List.replicate n .reader →
    runSteps n s = .next { s with schedule := [] }

/-! ## Encoding -/

/-- R71, R72, R73: command words of `95_test_vectors.md` section 4 and words written out from R70, decoded. -/
def Obligations.SampleWordsDecode : Prop :=
  decodeCommand 0x00000000000000000#68 = .nextFrame 0 ∧
  decodeCommand 0xABCDEF01234567890#68 = .nextFrame 0xABCDEF0123456789#64 ∧
  decodeCommand 0x00000000000000001#68 = .decodeRd 0 ∧
  decodeCommand 0x00000000000000002#68 = .decodeValueRd 0 ∧
  decodeCommand 0x00000000000000003#68 = .decodeUnitRd 0 ∧
  decodeCommand 0x00080000004F4C004#68 = .reserved4 0x00080000004F4C00#64 ∧
  decodeCommand 0x00800000103412005#68 = .decodeImm 0x0080000010341200#64 ∧
  decodeCommand 0x00008000009999416#68 = .decodeValueImm 0x0000800000999941#64 ∧
  decodeCommand 0x00000000000000017#68 = .decodeUnitImm 1 ∧
  decodeCommand 0x0000000000000002D#68 = .reserved8 5 2 ∧
  decodeRow .overload 0x00080000004F4C00#64 = .overloadSentinel 0x00080000004F4C00#64 ∧
  decodeRow .divisor 0x0000000000123406#64 = .divisorDiv100 0x0000000000123406#64 ∧
  decodeRow .baseUnit 0x3D3F000000000000#64 = .baseUnitOhm 0x3D3F000000000000#64

/-- R70, R71, R72: every bit of a command word is kept: encoding what a word decodes to gives the word back, and the
word of a code and an operand has that code and that operand. -/
def Obligations.CommandWordsLoseNoBit : Prop :=
  (∀ c : CmdWord, encode (decodeCommand c) = .command c) ∧
  ∀ (cmd : BitVec 4) (w : FrameWord), commandCode (commandWord cmd w) = cmd ∧ commandOperand (commandWord cmd w) = w

/-- R71, R72, R75: decode of encode of a well-formed instruction is the instruction, for every constructor and operand.
A row is well formed where its own condition holds and no earlier one of its group does (WellFormed.lean, from the
rules' bytes); the decoder looks it up by the table's masks. -/
def Obligations.DecodeEncodeRoundTrip : Prop :=
  ∀ i : Instr, WellFormed i = true → decode (encode i) = i

/-- R64, R75: every frame word selects one well-formed row of every group, and that row carries the whole frame. -/
def Obligations.EveryFrameSelectsARowOfEachGroup : Prop :=
  ∀ (g : RowGroup) (w : FrameWord), WellFormed (decodeRow g w) = true ∧ encode (decodeRow g w) = .frame g w

/-- R73: the words of a line. NEXT_FRAME, DECODE, DECODE_VALUE and DECODE_UNIT assemble to one word each, C = (W << 4) | cmd
with the cmd of R71: RD gives the RD code, and a literal the IMM code with byte i of W the literal's byte i, byte 0 first;
each word decodes to the command the line names. That NEXT_FRAME and the RD forms are assembled with the operand 0 is the
model's choice (log entry 17): R70 lets it hold any bits. -/
def Obligations.AssembledWordIsShiftedFrame : Prop :=
  (asmWords .nextFrame = [0x0#68] ∧ asmWords (.decode .rd) = [0x1#68] ∧ asmWords (.decodeValue .rd) = [0x2#68] ∧
    asmWords (.decodeUnit .rd) = [0x3#68]) ∧
  ((asmWords .nextFrame).map decodeCommand = [.nextFrame 0] ∧
    (asmWords (.decode .rd)).map decodeCommand = [.decodeRd 0] ∧
    (asmWords (.decodeValue .rd)).map decodeCommand = [.decodeValueRd 0] ∧
    (asmWords (.decodeUnit .rd)).map decodeCommand = [.decodeUnitRd 0]) ∧
  (∀ bs : List Byte, bs.length = 8 → ∃ w : FrameWord, (∀ i < 8, frameByte w i = bs.getD i 0) ∧
    asmWords (.decode (.literal bs)) = [w.setWidth 68 <<< 4 ||| 0x5#68] ∧
    asmWords (.decodeValue (.literal bs)) = [w.setWidth 68 <<< 4 ||| 0x6#68] ∧
    asmWords (.decodeUnit (.literal bs)) = [w.setWidth 68 <<< 4 ||| 0x7#68] ∧
    (asmWords (.decode (.literal bs))).map decodeCommand = [.decodeImm w] ∧
    (asmWords (.decodeValue (.literal bs))).map decodeCommand = [.decodeValueImm w] ∧
    (asmWords (.decodeUnit (.literal bs))).map decodeCommand = [.decodeUnitImm w]) ∧
  ∀ (op : BitVec 2) (bs : List Byte),
    asmCommand op (.literal bs) =
      ((packBytes 64 bs).setWidth 68 <<< 4 ||| (op.setWidth 68 ||| 4#68)) ∧
    asmCommand op .rd = op.setWidth 68

/-- R74: READ_DECODE is NEXT_FRAME and then DECODE RD, issued by the same host; where the NEXT_FRAME ended in an error,
and rd_frame is held as R25 says, the DECODE RD faults NoFrame. That both words carry the operand 0 is the model's choice
(log entry 17): R74 gives none. -/
def Obligations.ReadDecodeExpandsToTwoCommands : Prop :=
  (∀ h : HostId, ∃ c d : CmdWord, asmTurns h .readDecode = [.command h c, .command h d] ∧
    decodeCommand c = .nextFrame 0 ∧ decodeCommand d = .decodeRd 0) ∧
  ∀ s : State, FrameHeldWhenOk s → (s.rdStatus = .shortRead ∨ s.rdStatus = .ioError) →
    exec (.decodeRd 0) s = .next (takeFault .noFrame s.issuer s)

/-! ## NEXT_FRAME and the FrameReader -/

/-- R103: NEXT_FRAME outside a call starts one: these registers and no others, and the host is blocked (R100). -/
def Obligations.NextFrameStartsCall : Prop :=
  ∀ (w : FrameWord) (s : State), s.rdStatus ≠ .busy →
    ∃ hs, exec (.nextFrame w) s =
        .next { s with
          rdStatus := .busy, rdOwner := some s.issuer, rdCount := 0, rdBuf := [], rdFrame := none, waiting := hs } ∧
      ∀ k, k ∈ hs ↔ k = s.issuer ∨ k ∈ s.waiting

/-- R205, R208: NEXT_FRAME during a call records ConcurrentRead and stops its host; the call in progress, its stream
and the log are unaffected. -/
def Obligations.ConcurrentReadFaults : Prop :=
  ∀ (w : FrameWord) (s : State), s.rdStatus = .busy →
    ∃ hs, exec (.nextFrame w) s =
        .next { s with faults := s.faults ++ [.concurrentRead s.issuer], halted := hs } ∧
      ∀ k, k ∈ hs ↔ k = s.issuer ∨ k ∈ s.halted

/-- R104: the byte step with 0 to 6 bytes held stores the byte and counts it; with 7 held it delivers the frame whose
byte i is the (i+1)-th byte received, and responds to the owner, who is blocked no more. The turn and the list of blocked
hosts are the model's (log entries 3 and 5). -/
def Obligations.ByteStepStoresOrDelivers : Prop :=
  ∀ (s : State) (b : Byte) (es : List StreamEvent) (rest : List Turn) (h : HostId),
    s.schedule = .reader :: rest → s.rdStatus = .busy → s.stream = .byte b :: es → s.rdBuf.length = s.rdCount →
    s.rdOwner = some h →
    (s.rdCount < 7 → step s =
      .next { s with schedule := rest, stream := es, rdBuf := s.rdBuf ++ [b], rdCount := s.rdCount + 1 }) ∧
    (s.rdCount = 7 → ∃ (w : FrameWord) (hs : List HostId),
      step s = .next { s with
        schedule := rest, stream := es, rdBuf := [], rdCount := 0, rdStatus := .ok, rdFrame := some w,
        log := s.log ++ [(h, .frame w)], waiting := hs } ∧
      (∀ i < 8, frameByte w i = (s.rdBuf ++ [b]).getD i 0) ∧ ∀ k, k ∈ hs ↔ k ∈ s.waiting ∧ k ≠ h)

/-- R105, R106, R200, R209: End and Fail end the call whatever the count, with their own response and status code; the
partial bytes are gone, rd_frame is left as it was, no further event is consumed, and the owner is blocked no more. The turn
and the list of blocked hosts are the model's (log entries 3 and 5). -/
def Obligations.EndAndFailEndTheCall : Prop :=
  ∀ (s : State) (es : List StreamEvent) (rest : List Turn) (h : HostId),
    s.schedule = .reader :: rest → s.rdStatus = .busy → s.rdOwner = some h →
    ∃ hs, (∀ k, k ∈ hs ↔ k ∈ s.waiting ∧ k ≠ h) ∧
      (s.stream = .endOfData :: es → step s = .next { s with
        schedule := rest, stream := es, rdBuf := [], rdCount := 0, rdStatus := .shortRead,
        log := s.log ++ [(h, .shortReadError)], waiting := hs }) ∧
      (s.stream = .fail :: es → step s = .next { s with
        schedule := rest, stream := es, rdBuf := [], rdCount := 0, rdStatus := .ioError,
        log := s.log ++ [(h, .ioError)], waiting := hs })

/-- R42, R48, R100, R103, R104: from any state outside a call, a NEXT_FRAME of a host that can move, followed by eight
turns of the FrameReader on a stream that offers eight bytes, gives that host Frame(W) with byte i of W the (i+1)-th
byte, rd_status OK, rd_frame W and the rest of the stream untouched. Turns and blocked hosts are the model's (log entries 3, 5). -/
def Obligations.NextFrameDeliversEightBytes : Prop :=
  ∀ (s : State) (h : HostId) (c : CmdWord) (bs : List Byte) (es : List StreamEvent) (rest : List Turn),
    s.rdStatus ≠ .busy → canMove h s = true → commandCode c = 0 → bs.length = 8 →
    s.stream = bs.map .byte ++ es → s.schedule = .command h c :: (List.replicate 8 .reader ++ rest) →
    ∃ (t : State) (w : FrameWord), runSteps 9 s = .next t ∧ (∀ i < 8, frameByte w i = bs.getD i 0) ∧
      t.rdStatus = .ok ∧ t.rdFrame = some w ∧ t.stream = es ∧ t.log = s.log ++ [(h, .frame w)] ∧
      canMove h t = true ∧ t.faults = s.faults ∧ t.refused = s.refused ∧ t.schedule = rest

/-- R105, R106, R107, R110: the same call on a stream that offers fewer than eight bytes and then End or Fail gives the
host that error, whatever bytes came first; rd_frame holds no value and no byte is kept. Turns and blocked hosts are the
model's (log entries 3 and 5). -/
def Obligations.NextFrameFailsOnShortStream : Prop :=
  ∀ (s : State) (h : HostId) (c : CmdWord) (bs : List Byte) (e : StreamEvent) (es : List StreamEvent)
    (rest : List Turn),
    s.rdStatus ≠ .busy → canMove h s = true → commandCode c = 0 → bs.length < 8 → (e = .endOfData ∨ e = .fail) →
    s.stream = bs.map .byte ++ e :: es →
    s.schedule = .command h c :: (List.replicate (bs.length + 1) .reader ++ rest) →
    ∃ t : State, runSteps (bs.length + 2) s = .next t ∧ t.rdFrame = none ∧ t.rdBuf = [] ∧ t.rdCount = 0 ∧
      t.stream = es ∧ canMove h t = true ∧ t.schedule = rest ∧
      (e = .endOfData → t.rdStatus = .shortRead ∧ t.log = s.log ++ [(h, .shortReadError)]) ∧
      (e = .fail → t.rdStatus = .ioError ∧ t.log = s.log ++ [(h, .ioError)])

/-- R102, R50: a step takes at most the stream's first event, and only in a FrameReader turn (log entry 3) while BUSY. -/
def Obligations.OnlyTheReaderConsumesEvents : Prop :=
  ∀ s t : State, step s = .next t →
    t.stream = s.stream ∨
      (s.rdStatus = .busy ∧ (∃ e, s.stream = e :: t.stream) ∧ ∃ rest, s.schedule = .reader :: rest)

/-! ## The DECODE commands -/

/-- R181, R180: DECODE responds the Measurement of its frame to the issuing host, and writes nothing else. -/
def Obligations.DecodeRespondsMeasurement : Prop :=
  ∀ (w f : FrameWord) (s : State),
    (s.rdFrame = some f → exec (.decodeRd w) s =
      .next { s with log := s.log ++ [(s.issuer, .measurement (decodeValue f) (decodeUnit f))] }) ∧
    exec (.decodeImm w) s =
      .next { s with log := s.log ++ [(s.issuer, .measurement (decodeValue w) (decodeUnit w))] }

/-- R120: DECODE_VALUE responds the value of its frame to the issuing host, and writes nothing else. -/
def Obligations.DecodeValueRespondsValue : Prop :=
  ∀ (w f : FrameWord) (s : State),
    (s.rdFrame = some f → exec (.decodeValueRd w) s =
      .next { s with log := s.log ++ [(s.issuer, .value (decodeValue f))] }) ∧
    exec (.decodeValueImm w) s = .next { s with log := s.log ++ [(s.issuer, .value (decodeValue w))] }

/-- R155: DECODE_UNIT responds the unit string of its frame to the issuing host, and writes nothing else. -/
def Obligations.DecodeUnitRespondsUnit : Prop :=
  ∀ (w f : FrameWord) (s : State),
    (s.rdFrame = some f → exec (.decodeUnitRd w) s =
      .next { s with log := s.log ++ [(s.issuer, .unit (decodeUnit f))] }) ∧
    exec (.decodeUnitImm w) s = .next { s with log := s.log ++ [(s.issuer, .unit (decodeUnit w))] }

/-- R204: an RD form with no frame held (after reset, during a call, after an error: wherever rd_frame is held as R25 says
and rd_status is not OK) records NoFrame, responds nothing and stops its host; nothing else changes. -/
def Obligations.RdFormWithoutFrameFaults : Prop :=
  ∀ (w : FrameWord) (s : State), (s.rdFrame = none ∨ (FrameHeldWhenOk s ∧ s.rdStatus ≠ .ok)) →
    ∃ hs, (∀ k, k ∈ hs ↔ k = s.issuer ∨ k ∈ s.halted) ∧
      ∀ i ∈ [Instr.decodeRd w, .decodeValueRd w, .decodeUnitRd w],
        exec i s = .next { s with faults := s.faults ++ [.noFrame s.issuer], halted := hs }

/-- R72, R207: a reserved command, that is a word whose code is 0x4 or 0x8 to 0xF, sets the refusal mark, responds nothing
and stops its host; nothing else changes. -/
def Obligations.ReservedCommandIsRefused : Prop :=
  ∀ s : State, ∃ hs, (∀ k, k ∈ hs ↔ k = s.issuer ∨ k ∈ s.halted) ∧
    (∀ c : CmdWord, (commandCode c = 0x4#4 ∨ 0x8#4 ≤ commandCode c) →
      exec (decodeCommand c) s = .next { s with refused := true, halted := hs }) ∧
    ∀ (low : BitVec 3) (w : FrameWord),
      exec (.reserved4 w) s = .next { s with refused := true, halted := hs } ∧
      exec (.reserved8 low w) s = .next { s with refused := true, halted := hs }

/-- R184, R185: for one frame there is one value and one unit: in every state, from whatever host, DECODE responds the pair,
DECODE_VALUE the value and DECODE_UNIT the unit, whether the frame is the operand of an IMM form or is held in rd_frame. -/
def Obligations.OneMeasurementPerFrame : Prop :=
  ∀ f : FrameWord, ∃ (v : Binary64) (u : UnitString), ∀ (w : FrameWord) (s : State),
    (exec (.decodeImm f) s = .next (respond s.issuer (.measurement v u) s) ∧
      exec (.decodeValueImm f) s = .next (respond s.issuer (.value v) s) ∧
      exec (.decodeUnitImm f) s = .next (respond s.issuer (.unit u) s)) ∧
    (s.rdFrame = some f →
      exec (.decodeRd w) s = .next (respond s.issuer (.measurement v u) s) ∧
      exec (.decodeValueRd w) s = .next (respond s.issuer (.value v) s) ∧
      exec (.decodeUnitRd w) s = .next (respond s.issuer (.unit u) s))

/-! ## Value decode -/

/-- R120: decode_value, transcribed from the rule's pseudocode over the frame's bytes. -/
def Obligations.DecodeValueFollowsPseudocode : Prop :=
  ∀ w : FrameWord, decodeValue w =
    if frameByte w 1 = 0x4C#8 ∧ frameByte w 2 = 0x4F#8 then 0x7FF0000000000000#64
    else
      let m := 1000 * ((frameByte w 1).toNat / 16) + 100 * ((frameByte w 1).toNat % 16) +
        10 * ((frameByte w 2).toNat / 16) + (frameByte w 2).toNat % 16
      let v := f64 m
      let v := if frameByte w 0 &&& 0x01#8 ≠ 0#8 then fdiv v 0x408F400000000000#64
        else if frameByte w 0 &&& 0x02#8 ≠ 0#8 then fdiv v 0x4059000000000000#64
        else if frameByte w 0 &&& 0x04#8 ≠ 0#8 then fdiv v 0x4024000000000000#64 else v
      let v := if frameByte w 0 &&& 0x40#8 ≠ 0#8 then fneg v else v
      if frameByte w 4 &&& 0x02#8 ≠ 0#8 then fmul v 0x3E112E0BE826D695#64
      else if frameByte w 5 &&& 0x10#8 ≠ 0#8 then fmul v 0x412E848000000000#64
      else if frameByte w 5 &&& 0x20#8 ≠ 0#8 then fmul v 0x408F400000000000#64
      else if frameByte w 5 &&& 0x40#8 ≠ 0#8 then fmul v 0x3F50624DD2F1A9FC#64
      else if frameByte w 5 &&& 0x80#8 ≠ 0#8 then fmul v 0x3EB0C6F7A0B5ED8D#64 else v

/-- R121: overload is 1 on the sentinel alone; there the value is +inf, whatever the other six bytes hold, and the selector
ports still show their own chains: a frame with the same byte 0 shows the same div_sel and neg, and one with the same
bytes 4 and 5 the same prefix_sel, whether it is the sentinel or not. -/
def Obligations.SentinelGivesPlusInfinity : Prop :=
  ∀ w : FrameWord,
    ((decoderPorts w).overload = 1#1 ↔ (frameByte w 1 = 0x4C#8 ∧ frameByte w 2 = 0x4F#8)) ∧
    (frameByte w 1 = 0x4C#8 → frameByte w 2 = 0x4F#8 →
      decodeValue w = 0x7FF0000000000000#64 ∧ (decoderPorts w).value = 0x7FF0000000000000#64) ∧
    ∀ x : FrameWord,
      (frameByte x 0 = frameByte w 0 →
        (decoderPorts w).divSel = (decoderPorts x).divSel ∧ (decoderPorts w).neg = (decoderPorts x).neg) ∧
      (frameByte x 4 = frameByte w 4 → frameByte x 5 = frameByte w 5 →
        (decoderPorts w).prefixSel = (decoderPorts x).prefixSel)

/-- R122: the magnitude of any frame is the weighted sum of its digits, at most 16665, and at most 9999 when every
nibble is a decimal digit. -/
def Obligations.MagnitudeStaysInRange : Prop :=
  ∀ w : FrameWord,
    magnitude w = 1000 * (w.extractLsb' 12 4).toNat + 100 * (w.extractLsb' 8 4).toNat +
      10 * (w.extractLsb' 20 4).toNat + (w.extractLsb' 16 4).toNat ∧
    magnitude w ≤ 16665 ∧ (BcdValid w → magnitude w ≤ 9999)

/-- R11, R122: f64 of every integer the core forms is exact: a finite pattern of the integer's sign and magnitude. -/
def Obligations.IntegerConversionIsExact : Prop :=
  ∀ n : Int, n.natAbs ≤ 16665 →
    IsFinite (f64 n) ∧ scaledMagnitude (f64 n) = n.natAbs * 2 ^ 1075 ∧ signBit (f64 n) = decide (n < 0)

/-- R11, R124, R127 (IEEE 754 by K1): where the rounding of a positive num/den is finite, no finite binary64 lies nearer
to num/den, and where another lies as near, the rounded one's last bit is 0. -/
def Obligations.RoundingIsToNearestTiesToEven : Prop :=
  ∀ (num den : Nat) (y : Binary64), 0 < den → IsFinite (roundNearest false num den) → IsFinite y →
    signBit y = false →
    let distance : Binary64 → Nat := fun v => ((num * 2 ^ 1075 : Int) - (scaledMagnitude v * den : Nat)).natAbs
    distance (roundNearest false num den) ≤ distance y ∧
      (distance (roundNearest false num den) = distance y → y ≠ roundNearest false num den →
        (roundNearest false num den).getLsbD 0 = false)

/-- R124, R127: the divisors and prefix constants are the binary64 values nearest the decimal literals. -/
def Obligations.ScaleConstantsAreNearest : Prop :=
  const1000 = f64 1000 ∧ const100 = f64 100 ∧ const10 = f64 10 ∧ constMega = f64 1000000 ∧ constKilo = f64 1000 ∧
    constMilli = roundNearest false 1 1000 ∧ constMicro = roundNearest false 1 1000000 ∧
    constNano = roundNearest false 1 1000000000

/-- R129: a frame that is not the sentinel gives a zero or a normal number, never an infinity or a NaN, of magnitude at
most 1.6665e10 (0x420F0A7DC2000000), and, where not zero, at least the value of vector VV32 (0x3D719799812DEA12). -/
def Obligations.ValueIsZeroOrNormalInRange : Prop :=
  ∀ w : FrameWord, overload w = false →
    lowBits (decodeValue w) = 0 ∨
      (1 ≤ expField (decodeValue w) ∧ expField (decodeValue w) < 2047 ∧
        0x3D719799812DEA12 ≤ lowBits (decodeValue w) ∧ lowBits (decodeValue w) ≤ 0x420F0A7DC2000000)

/-- R130: a zero magnitude gives +0.0, or −0.0 when neg is set, whatever the divisor and the prefix. -/
def Obligations.ZeroMagnitudeKeepsItsSign : Prop :=
  ∀ w : FrameWord, magnitude w = 0 →
    decodeValue w = if neg w then 0x8000000000000000#64 else 0#64

/-- R131: inverting bit 0x40 of F[0] negates the value, bit for bit, on every frame that is not the sentinel. -/
def Obligations.SignBitNegatesTheValue : Prop :=
  ∀ w : FrameWord, overload w = false → decodeValue (w ^^^ 0x40#64) = fneg (decodeValue w)

/-- R132: with no divisor, sign or prefix, a frame that is not the sentinel has its magnitude as its value. -/
def Obligations.PlainFrameHasItsMagnitude : Prop :=
  ∀ w : FrameWord, overload w = false → frameByte w 0 &&& 0x47#8 = 0#8 → prefixSel w = .none →
    decodeValue w = f64 (magnitude w)

/-- R136: setting exactly one divisor bit on a frame with none divides: exactly fdiv of the undivided value where no
prefix is selected, and the product of the divided signed magnitude with the prefix constant otherwise. -/
def Obligations.DivisorBitDivides : Prop :=
  ∀ (w bit : FrameWord) (d : Binary64), overload w = false → frameByte w 0 &&& 0x07#8 = 0#8 →
    (bit, d) ∈ [(0x01#64, 0x408F400000000000#64), (0x02#64, 0x4059000000000000#64), (0x04#64, 0x4024000000000000#64)] →
    decodeValue (w ||| bit) = multiplyStage (prefixSel w) (fdiv (signStage (neg w) (f64 (magnitude w))) d) ∧
      (prefixSel w = .none → decodeValue (w ||| bit) = fdiv (decodeValue w) d)

/-- R135: frames that agree on the listed bits have the same value. The mask holds F[0] bits 0x47, all of F[1] and F[2],
F[4] bit 0x02 and F[5] bits 0xF0. -/
def Obligations.ValueReadsOnlyItsBits : Prop :=
  ∀ w x : FrameWord, w &&& 0x0000F00200FFFF47#64 = x &&& 0x0000F00200FFFF47#64 → decodeValue w = decodeValue x

/-! ## Unit decode -/

/-- R151: on every frame with no suffix, the base_unit code, the unit string, its byte length and its UTF-8 bytes (byte 0
lowest) are one line of the rule's table. -/
def Obligations.BaseUnitStringsAsListed : Prop :=
  ∀ w : FrameWord, (decoderPorts w).suffix = 0#2 →
    ((decoderPorts w).baseUnit, decodeUnit w, (decoderPorts w).unitLen, (decoderPorts w).unitBytes) ∈
      [(0#4, ['V', 'd', 'i', 'o', 'd', 'e'], 6#4, 0x65646F696456#72), (1#4, ['V'], 1#4, 0x56#72),
        (2#4, ['A'], 1#4, 0x41#72), (3#4, ['\u03A9'], 2#4, 0xA9CE#72), (4#4, ['\u00B0', 'F'], 3#4, 0x46B0C2#72),
        (5#4, ['\u00B0', 'C'], 3#4, 0x43B0C2#72), (6#4, ['F'], 1#4, 0x46#72), (7#4, ['H', 'z'], 2#4, 0x7A48#72),
        (8#4, ['h', 'F', 'E'], 3#4, 0x454668#72), (9#4, ['u', 'n', 'k', 'n', 'o', 'w', 'n'], 7#4, 0x6E776F6E6B6E75#72)]

/-- R155: decode_unit, transcribed from the rule's pseudocode over the frame's bytes. -/
def Obligations.DecodeUnitFollowsPseudocode : Prop :=
  ∀ w : FrameWord, decodeUnit w =
    (if frameByte w 5 &&& 0x04#8 ≠ 0#8 then ['V', 'd', 'i', 'o', 'd', 'e']
      else if frameByte w 6 &&& 0x80#8 ≠ 0#8 then ['V']
      else if frameByte w 6 &&& 0x40#8 ≠ 0#8 then ['A']
      else if frameByte w 7 &&& 0x3D#8 = 0x3D#8 then ['\u03A9']
      else if frameByte w 6 &&& 0x01#8 ≠ 0#8 then ['\u00B0', 'F']
      else if frameByte w 6 &&& 0x02#8 ≠ 0#8 then ['\u00B0', 'C']
      else if frameByte w 6 &&& 0x04#8 ≠ 0#8 then ['F']
      else if frameByte w 6 &&& 0x08#8 ≠ 0#8 then ['H', 'z']
      else if frameByte w 6 &&& 0x10#8 ≠ 0#8 then ['h', 'F', 'E']
      else ['u', 'n', 'k', 'n', 'o', 'w', 'n']) ++
    (if frameByte w 3 &&& 0x08#8 ≠ 0#8 then ['A', 'C']
      else if frameByte w 3 &&& 0x10#8 ≠ 0#8 then ['D', 'C'] else [])

/-- R154: unit_len is the byte length of the UTF-8 form of the unit string and lies in 1 to 9, 9 for "unknownAC" and
"unknownDC" and 1 for "V", "A" and "F" alone; byte k of unit_bytes is byte k of that form, none of them 0x00, and 0x00 from
unit_len to 8. -/
def Obligations.StringPortsHoldTheUnit : Prop :=
  ∀ w : FrameWord,
    (decoderPorts w).unitLen.toNat = (utf8 (decodeUnit w)).length ∧ 1 ≤ (decoderPorts w).unitLen.toNat ∧
    (decoderPorts w).unitLen.toNat ≤ 9 ∧
    ((decoderPorts w).unitLen = 9#4 ↔ decodeUnit w ∈ ["unknownAC".toList, "unknownDC".toList]) ∧
    ((decoderPorts w).unitLen = 1#4 ↔ decodeUnit w ∈ [['V'], ['A'], ['F']]) ∧
    (∀ b ∈ utf8 (decodeUnit w), b ≠ 0#8) ∧
    ∀ k < 9, (decoderPorts w).unitBytes.extractLsb' (8 * k) 8 = (utf8 (decodeUnit w)).getD k 0

/-- R157: frames that agree on the listed bits have the same unit. The mask holds F[3] bits 0x18, F[5] bit 0x04, F[6]
bits 0xDF and F[7] bits 0x3D. -/
def Obligations.UnitReadsOnlyItsBits : Prop :=
  ∀ w x : FrameWord, w &&& 0x3DDF040018000000#64 = x &&& 0x3DDF040018000000#64 → decodeUnit w = decodeUnit x

/-- R63: the listed bits, 24 in all, change no output port: frames that agree on all other bits show the same ports, but
for frame_in. The mask holds F[0] bits 0xB8, F[3] 0xE7, F[4] 0xFD, F[5] 0x0B, F[6] 0x20 and F[7] 0xC2. -/
def Obligations.UnreadBitsChangeNoPort : Prop :=
  (List.range 64).countP (fun k => (0xC2200BFDE70000B8#64).getLsbD k) = 24 ∧
  ∀ w x : FrameWord, w ||| 0xC2200BFDE70000B8#64 = x ||| 0xC2200BFDE70000B8#64 →
    { decoderPorts w with frameIn := x } = decoderPorts x

/-- R158: the Ω condition needs all five bits: the listed bytes satisfy it and the listed others do not; where it holds
the unit is Ω unless Vdiode, V or A holds. -/
def Obligations.OhmNeedsAllFiveBits : Prop :=
  (∀ b ∈ [0x3D#8, 0x3F#8, 0x7D#8, 0xBD#8, 0xFF#8], b &&& 0x3D#8 = 0x3D#8) ∧
  (∀ b ∈ [0x3C#8, 0x39#8, 0x35#8, 0x2D#8, 0x1D#8], b &&& 0x3D#8 ≠ 0x3D#8) ∧
  ∀ w : FrameWord, baseUnit w = .ohm ↔
    (frameByte w 7 &&& 0x3D#8 = 0x3D#8 ∧ frameByte w 5 &&& 0x04#8 = 0#8 ∧ frameByte w 6 &&& 0xC0#8 = 0#8)

/-! ## The FRAME64 rows: each drives the port its table row names, where its group selects it

That a row is run on a frame, and that what it drives is kept in portView, is the model's choice (log entries 1 and 2). -/

/-- R69, R75, R121: each OVERLOAD row, on the frames that select it, shows its overload bit, and +inf on the sentinel, in the
model's portView (log entries 1 and 2); nothing else changes. -/
def Obligations.OverloadRowsDrivePort : Prop :=
  ∀ (w : FrameWord) (s : State),
    ((frameByte w 1 = 0x4C#8 ∧ frameByte w 2 = 0x4F#8) → ∃ v : DecoderView,
      exec (.overloadSentinel w) s = .next { s with portView := some v } ∧ v.frameIn = w ∧ v.overload = 1#1 ∧
        v.value = 0x7FF0000000000000#64) ∧
    (¬(frameByte w 1 = 0x4C#8 ∧ frameByte w 2 = 0x4F#8) → ∃ v : DecoderView,
      exec (.overloadNone w) s = .next { s with portView := some v } ∧ v.frameIn = w ∧ v.overload = 0#1)

/-- R65, R75, R123: each DIVISOR row, on the frames that select it, shows its div_sel code in the model's portView (log
entries 1 and 2); nothing else changes. -/
def Obligations.DivisorRowsDrivePort : Prop :=
  ∀ (w : FrameWord) (s : State) (i : Instr) (code : BitVec 2),
    (i, code) ∈ [(.divisorDiv1000 w, 3#2), (.divisorDiv100 w, 2#2), (.divisorDiv10 w, 1#2), (.divisorNone w, 0#2)] →
    WellFormed i = true →
    ∃ v : DecoderView, exec i s = .next { s with portView := some v } ∧ v.frameIn = w ∧ v.divSel = code

/-- R75, R125: each SIGN row, on the frames that select it, shows its neg bit in the model's portView (log entries 1 and 2);
nothing else changes. -/
def Obligations.SignRowsDrivePort : Prop :=
  ∀ (w : FrameWord) (s : State),
    (frameByte w 0 &&& 0x40#8 ≠ 0#8 → ∃ v : DecoderView,
      exec (.signNeg w) s = .next { s with portView := some v } ∧ v.frameIn = w ∧ v.neg = 1#1) ∧
    (frameByte w 0 &&& 0x40#8 = 0#8 → ∃ v : DecoderView,
      exec (.signPos w) s = .next { s with portView := some v } ∧ v.frameIn = w ∧ v.neg = 0#1)

/-- R66, R75, R126: each PREFIX row, on the frames that select it, shows its prefix_sel code in the model's portView (log
entries 1 and 2); nothing else changes. -/
def Obligations.PrefixRowsDrivePort : Prop :=
  ∀ (w : FrameWord) (s : State) (i : Instr) (code : BitVec 3),
    (i, code) ∈ [(.prefixNano w, 1#3), (.prefixMega w, 2#3), (.prefixKilo w, 3#3), (.prefixMilli w, 4#3),
      (.prefixMicro w, 5#3), (.prefixNone w, 0#3)] →
    WellFormed i = true →
    ∃ v : DecoderView, exec i s = .next { s with portView := some v } ∧ v.frameIn = w ∧ v.prefixSel = code

/-- R67, R75, R150, R151, R153: each BASE_UNIT row, on the frames that select it, shows its code, and the string ports of
its string with the frame's suffix, in the model's portView (log entries 1 and 2); nothing else changes. -/
def Obligations.BaseUnitRowsDrivePorts : Prop :=
  ∀ (w : FrameWord) (s : State) (i : Instr) (code : BitVec 4) (u : UnitString),
    (i, code, u) ∈ [(.baseUnitVdiode w, 0#4, ['V', 'd', 'i', 'o', 'd', 'e']), (.baseUnitV w, 1#4, ['V']),
      (.baseUnitA w, 2#4, ['A']), (.baseUnitOhm w, 3#4, ['\u03A9']), (.baseUnitDegF w, 4#4, ['\u00B0', 'F']),
      (.baseUnitDegC w, 5#4, ['\u00B0', 'C']), (.baseUnitFarad w, 6#4, ['F']), (.baseUnitHz w, 7#4, ['H', 'z']),
      (.baseUnitHfe w, 8#4, ['h', 'F', 'E']),
      (.baseUnitUnknown w, 9#4, ['u', 'n', 'k', 'n', 'o', 'w', 'n'])] →
    WellFormed i = true →
    ∃ v : DecoderView, exec i s = .next { s with portView := some v } ∧ v.frameIn = w ∧ v.baseUnit = code ∧
      v.unitLen = unitLen (u ++ suffixString (suffixSel w)) ∧
      v.unitBytes = unitBytes (u ++ suffixString (suffixSel w))

/-- R68, R75, R152, R153: each SUFFIX row, on the frames that select it, shows its code, and the string ports of the
frame's base string with its suffix, in the model's portView (log entries 1 and 2); nothing else changes. -/
def Obligations.SuffixRowsDrivePorts : Prop :=
  ∀ (w : FrameWord) (s : State) (i : Instr) (code : BitVec 2) (u : UnitString),
    (i, code, u) ∈ [(.suffixAc w, 1#2, ['A', 'C']), (.suffixDc w, 2#2, ['D', 'C']), (.suffixNone w, 0#2, [])] →
    WellFormed i = true →
    ∃ v : DecoderView, exec i s = .next { s with portView := some v } ∧ v.frameIn = w ∧ v.suffix = code ∧
      v.unitLen = unitLen (baseUnitString (baseUnit w) ++ u) ∧
      v.unitBytes = unitBytes (baseUnitString (baseUnit w) ++ u)

/-- R62, R76, R122: the DIGITS row shows m, formed from the four digit fields of W, in the model's portView (log entries 1
and 2); nothing else changes. -/
def Obligations.DigitsRowFormsMagnitude : Prop :=
  ∀ (w : FrameWord) (s : State), ∃ v : DecoderView,
    exec (.digits w) s = .next { s with portView := some v } ∧ v.frameIn = w ∧
      v.magnitude = 1000 * (w.extractLsb' 12 4).toNat + 100 * (w.extractLsb' 8 4).toNat +
        10 * (w.extractLsb' 20 4).toNat + (w.extractLsb' 16 4).toNat

/-- R13, R28, R75: the table's rows and the pseudocode's chains are one decoder: observing any row of any group on any frame
shows all ports as the chains give them, whether the row is the one its group selects, found by the table's masks and
driving its own result, or one that decides nothing (the model's log entries 1 and 15); nothing else changes. -/
def Obligations.TableRowsAgreeWithChains : Prop :=
  ∀ (i : Instr) (g : RowGroup) (w : FrameWord) (s : State), encode i = .frame g w →
    exec i s = .next { s with portView := some (decoderPorts w) }

/-! ## The whole machine -/

/-- R24, R201, R213: rd_status shows the five listed codes and never 5 to 7; no instruction but NEXT_FRAME changes a register
of the FrameReader or its stream; and a step changes the code of rd_status only as the rule's last column says: to 0 by a
reset, to 1 by a NEXT_FRAME command, and, by the FrameReader while BUSY, to 2 on a byte with seven received, to 3 on End
and to 4 on Fail. The turns are the model's (log entry 3). -/
def Obligations.OnlyNextFrameTouchesTheReader : Prop :=
  (statusCode .none = 0#3 ∧ statusCode .busy = 1#3 ∧ statusCode .ok = 2#3 ∧ statusCode .shortRead = 3#3 ∧
    statusCode .ioError = 4#3 ∧ ∀ s : State, statusCode s.rdStatus ≤ 4#3) ∧
  (∀ (i : Instr) (s t : State), exec i s = .next t → (∀ w, i ≠ .nextFrame w) → SameReader s t) ∧
  ∀ s t : State, step s = .next t →
    statusCode t.rdStatus = statusCode s.rdStatus ∨
    (statusCode t.rdStatus = 0#3 ∧ ∃ rest, s.schedule = .reset :: rest) ∨
    (statusCode t.rdStatus = 1#3 ∧ ∃ h c rest, s.schedule = .command h c :: rest ∧ commandCode c = 0x0#4) ∨
    (statusCode s.rdStatus = 1#3 ∧ (∃ rest, s.schedule = .reader :: rest) ∧
      ((statusCode t.rdStatus = 2#3 ∧ s.rdCount = 7 ∧ ∃ b, s.stream = .byte b :: t.stream) ∨
        (statusCode t.rdStatus = 3#3 ∧ s.stream = .endOfData :: t.stream) ∨
        (statusCode t.rdStatus = 4#3 ∧ s.stream = .fail :: t.stream)))

/-- R182, R201, R207: no instruction of the table ever stops the machine: every one has its effect, or takes its fault
or its refusal, in a next state (log entry 13). -/
def Obligations.EveryInstructionHasANextState : Prop :=
  ∀ (i : Instr) (s : State), ∃ t, exec i s = .next t

/-- R30, R206, R239: outside a reset, a step clears no recorded fault, clears no refusal and changes no response already
given; it adds at most one response and at most one fault, never both. That a reset does clear them is the model's reading (log
entry 7). -/
def Obligations.MarksAndResponsesAreNeverCleared : Prop :=
  ∀ s t : State, step s = .next t → (∀ rest, s.schedule ≠ .reset :: rest) →
    (s.refused = true → t.refused = true) ∧
    ((t.log = s.log ∧ t.faults = s.faults) ∨ (∃ e, t.log = s.log ++ [e] ∧ t.faults = s.faults) ∨
      ∃ f, t.faults = s.faults ++ [f] ∧ t.log = s.log)

/-- R204, R205, R207: a host with no further step never gets another response: outside a reset, a step of a state that
meets the invariant keeps every stopped host stopped, and adds no response to it. -/
def Obligations.StoppedHostsGetNoResponse : Prop :=
  ∀ (s t : State) (h : HostId), MachineInv s → step s = .next t → (∀ rest, s.schedule ≠ .reset :: rest) → h ∈ s.halted →
    h ∈ t.halted ∧ ∀ e, t.log = s.log ++ [e] → e.1 ≠ h

/-- R8, R20: for every number of hosts, the machine names no host but those its turns name: a step keeps every host it
names among h1..hN. -/
def Obligations.HostsStayWithinTheirNumber : Prop :=
  ∀ (n : Nat) (s t : State), HostsWithin n s → step s = .next t → HostsWithin n t

/-- R24 to R28, R100, R204 to R207: the invariant holds right after reset, whatever the stream offers and whatever turns
are to come. -/
def Obligations.InvariantHoldsAfterReset : Prop :=
  ∀ (es : List StreamEvent) (ts : List Turn), MachineInv { State.reset with stream := es, schedule := ts }

/-- R24 to R28, R100, R204 to R207: every step keeps the invariant: rd_frame holds a value exactly while rd_status = OK;
rd_buf holds rd_count bytes, fewer than 8, and none outside a call; while BUSY the owner is blocked; no host is both
blocked and stopped; every recorded fault and refusal has stopped a host; the ports' observation is one evaluation. -/
def Obligations.EveryStepKeepsTheInvariant : Prop :=
  ∀ s t : State, MachineInv s → step s = .next t → MachineInv t

/-- R182, R204 to R209: in a state that meets the invariant a step never stops the machine: a wait, a fault and a refusal of
the rules are next states (log entries 9 and 13). -/
def Obligations.StepNeverStopsTheMachine : Prop :=
  ∀ s : State, MachineInv s → ∃ t, step s = .next t

/-- R52, R213: two DECODE commands of any hosts, each of an IMM form, or of an RD form with a frame held in rd_frame, issued one
after the other in either order, give each the response it gives alone, and leave the same machine but for the order of the
two responses in the log and the model's own issuer field (log entry 10). The turns are the model's (log entry 3). -/
def Obligations.DecodesOfTwoHostsCommute : Prop :=
  ∀ (s : State) (h k : HostId) (c d : CmdWord) (rest : List Turn),
    (commandCode c ∈ [5#4, 6#4, 7#4] ∨ (commandCode c ∈ [1#4, 2#4, 3#4] ∧ s.rdFrame ≠ none)) →
    (commandCode d ∈ [5#4, 6#4, 7#4] ∨ (commandCode d ∈ [1#4, 2#4, 3#4] ∧ s.rdFrame ≠ none)) →
    canMove h s = true → canMove k s = true →
    ∃ (p q : Response),
      step { s with schedule := .command h c :: rest } =
        .next { s with schedule := rest, issuer := h, log := s.log ++ [(h, p)] } ∧
      step { s with schedule := .command k d :: rest } =
        .next { s with schedule := rest, issuer := k, log := s.log ++ [(k, q)] } ∧
      runSteps 2 { s with schedule := .command h c :: .command k d :: rest } =
        .next { s with schedule := rest, issuer := k, log := s.log ++ [(h, p), (k, q)] } ∧
      runSteps 2 { s with schedule := .command k d :: .command h c :: rest } =
        .next { s with schedule := rest, issuer := h, log := s.log ++ [(k, q), (h, p)] }
end

