-- ==== Sys2Proof/Laws/Binary64.lean ====
section
/-! SUPPORT. The fields of binary64 patterns, and how fneg passes through fdiv and fmul (R11, R125, R131). -/

namespace Sys2Proof.Laws

open Sys2Proof.Machine

/-! ## Fields of a sign and 63 low bits -/

theorem toNat_signed (s : Bool) (n : Nat) (h : n < 2 ^ 63) : (signed s n).toNat = s.toNat * 2 ^ 63 + n := by
  rw [signed, BitVec.toNat_ofNat, Nat.mod_eq_of_lt h, Nat.mod_eq_of_lt]
  cases s <;> simp <;> omega

theorem signed_eq_of_toNat (v : Binary64) (s : Bool) (n : Nat) (h : n < 2 ^ 63) (e : v.toNat = s.toNat * 2 ^ 63 + n) :
    v = signed s n :=
  BitVec.eq_of_toNat_eq (e.trans (toNat_signed s n h).symm)

theorem signBit_signed (s : Bool) (n : Nat) (h : n < 2 ^ 63) : signBit (signed s n) = s := by
  rw [signBit, BitVec.getLsbD, toNat_signed s n h, Nat.testBit_eq_decide_div_mod_eq]
  cases s
  · simp only [Bool.toNat_false, decide_eq_false_iff_not]; omega
  · simp only [Bool.toNat_true, decide_eq_true_eq]; omega

theorem expField_signed (s : Bool) (n : Nat) (h : n < 2 ^ 63) : expField (signed s n) = n / 2 ^ 52 := by
  have small : n / 2 ^ 52 < 2 ^ 11 := Nat.div_lt_of_lt_mul (by rw [← Nat.pow_add]; exact h)
  have split : s.toNat * 2 ^ 63 + n = n + 2 ^ 52 * (2 ^ 11 * s.toNat) := by
    rw [← Nat.mul_assoc, ← Nat.pow_add, Nat.mul_comm, Nat.add_comm]
  rw [expField, BitVec.extractLsb'_toNat, toNat_signed s n h, Nat.shiftRight_eq_div_pow, split,
    Nat.add_mul_div_left _ _ (Nat.two_pow_pos 52), Nat.add_mul_mod_self_left, Nat.mod_eq_of_lt small]

theorem fracField_signed (s : Bool) (n : Nat) (h : n < 2 ^ 63) : fracField (signed s n) = n % 2 ^ 52 := by
  have split : s.toNat * 2 ^ 63 + n = n + 2 ^ 52 * (2 ^ 11 * s.toNat) := by
    rw [← Nat.mul_assoc, ← Nat.pow_add, Nat.mul_comm, Nat.add_comm]
  rw [fracField, BitVec.extractLsb'_toNat, toNat_signed s n h, Nat.shiftRight_zero, split,
    Nat.add_mul_mod_self_left]

theorem fneg_signed (s : Bool) (n : Nat) (h : n < 2 ^ 63) : fneg (signed s n) = signed (!s) n := by
  apply signed_eq_of_toNat _ _ _ h
  have low : ∀ b : Bool, b.toNat * 2 ^ 63 + n = 2 ^ 63 * b.toNat + n := fun b => by rw [Nat.mul_comm]
  rw [fneg, BitVec.toNat_xor, toNat_signed s n h, low, low]
  have top : (0x8000000000000000#64).toNat = 2 ^ 63 * 1 + 0 := by decide
  rw [top]
  apply Nat.eq_of_testBit_eq
  intro k
  rw [Nat.testBit_xor, Nat.testBit_two_pow_mul_add _ h, Nat.testBit_two_pow_mul_add _ (by decide),
    Nat.testBit_two_pow_mul_add _ h]
  by_cases hk : k < 63
  · simp [hk]
  · simp only [hk, if_false]
    cases s <;> simp

/-! ## fneg changes the sign bit and nothing else -/

theorem expField_fneg (v : Binary64) : expField (fneg v) = expField v := by
  have : (fneg v).extractLsb' 52 11 = v.extractLsb' 52 11 := by
    apply BitVec.eq_of_getLsbD_eq
    intro k hk
    have top : ∀ k < 11, (0x8000000000000000#64).getLsbD (52 + k) = false := by decide
    simp [fneg, hk, top k hk]
  simp [expField, this]

theorem fracField_fneg (v : Binary64) : fracField (fneg v) = fracField v := by
  have : (fneg v).extractLsb' 0 52 = v.extractLsb' 0 52 := by
    apply BitVec.eq_of_getLsbD_eq
    intro k hk
    have top : ∀ k < 52, (0x8000000000000000#64).getLsbD k = false := by decide
    simp [fneg, hk, top k hk]
  simp [fracField, this]

theorem signBit_fneg (v : Binary64) : signBit (fneg v) = !signBit v := by
  simp [signBit, fneg]

theorem scaledMagnitude_fneg (v : Binary64) : scaledMagnitude (fneg v) = scaledMagnitude v := by
  simp only [scaledMagnitude, expField_fneg, fracField_fneg]

theorem isNaN_fneg (v : Binary64) : isNaN (fneg v) = isNaN v := by
  simp only [isNaN, expField_fneg, fracField_fneg]

theorem isInf_fneg (v : Binary64) : isInf (fneg v) = isInf v := by
  simp only [isInf, expField_fneg, fracField_fneg]

theorem isZero_fneg (v : Binary64) : isZero (fneg v) = isZero v := by
  simp only [isZero, expField_fneg, fracField_fneg]

theorem fneg_fneg (v : Binary64) : fneg (fneg v) = v := by
  simp [fneg]

/-! ## Rounding -/

theorem roundBits_le_infBits (num den : Nat) : roundBits num den ≤ infBits := by
  simp only [roundBits]
  exact Nat.min_le_right _ _

theorem roundBits_lt (num den : Nat) : roundBits num den < 2 ^ 63 :=
  lt_of_le_of_lt (roundBits_le_infBits num den) (by decide)

theorem fneg_roundNearest (s : Bool) (num den : Nat) :
    fneg (roundNearest s num den) = roundNearest (!s) num den := fneg_signed s _ (roundBits_lt num den)

/-- Rounding never gives a NaN. -/
theorem isNaN_roundNearest (s : Bool) (num den : Nat) : isNaN (roundNearest s num den) = false := by
  have le := roundBits_le_infBits num den
  have e := expField_signed s _ (roundBits_lt num den)
  have f := fracField_signed s _ (roundBits_lt num den)
  simp only [isNaN, roundNearest, e, f, decide_eq_false_iff_not, not_and, not_not]
  simp only [infBits] at le
  omega

/-! ## fneg through fdiv and fmul, by a finite number that is not zero -/

theorem fdiv_fneg (a b : Binary64) (na : isNaN a = false) (nb : isNaN b = false) (fb : isInf b = false)
    (zb : isZero b = false) : fdiv (fneg a) b = fneg (fdiv a b) := by
  simp only [fdiv, isNaN_fneg, isInf_fneg, isZero_fneg, signBit_fneg, scaledMagnitude_fneg, na, nb, fb, zb]
  by_cases ia : isInf a <;> simp [ia, fneg_signed _ infBits (by decide), fneg_roundNearest]

theorem fmul_fneg (a b : Binary64) (na : isNaN a = false) (nb : isNaN b = false) (fb : isInf b = false)
    (zb : isZero b = false) : fmul (fneg a) b = fneg (fmul a b) := by
  simp only [fmul, isNaN_fneg, isInf_fneg, isZero_fneg, signBit_fneg, scaledMagnitude_fneg, na, nb, fb, zb]
  by_cases ia : isInf a <;> simp [ia, fneg_signed _ infBits (by decide), fneg_roundNearest]

/-- fdiv by a finite number that is not zero gives no NaN from what is not one. -/
theorem isNaN_fdiv (a b : Binary64) (na : isNaN a = false) (nb : isNaN b = false) (fb : isInf b = false)
    (zb : isZero b = false) : isNaN (fdiv a b) = false := by
  simp only [fdiv, na, nb, fb, zb]
  by_cases ia : isInf a
  · have f := fracField_signed (signBit a ^^ signBit b) infBits (by decide)
    have z : infBits % 2 ^ 52 = 0 := by decide
    rw [z] at f
    simp [ia, isNaN, f]
  · simp [ia, isNaN_roundNearest]

theorem isNaN_f64 (n : Int) : isNaN (f64 n) = false := isNaN_roundNearest _ _ _

end Sys2Proof.Laws
end

