-- ==== Sys2Proof/Laws/Bits.lean ====
section
/-! SUPPORT. The bits of a frame word: byte tests and table masks both read single bits of W (R9, R10, R44, R75). -/

namespace Sys2Proof.Laws

open Sys2Proof.Machine

theorem getLsbD_frameByte (w : FrameWord) (i j : Nat) :
    (frameByte w i).getLsbD j = (decide (j < 8) && w.getLsbD (8 * i + j)) := by
  simp [frameByte]

theorem frameByte_and (w x : FrameWord) (i : Nat) : frameByte (w &&& x) i = frameByte w i &&& frameByte x i := by
  apply BitVec.eq_of_getLsbD_eq
  intro j hj
  simp only [getLsbD_frameByte, BitVec.getLsbD_and, hj, decide_true, Bool.true_and]

theorem frameByte_or (w x : FrameWord) (i : Nat) : frameByte (w ||| x) i = frameByte w i ||| frameByte x i := by
  apply BitVec.eq_of_getLsbD_eq
  intro j hj
  simp only [getLsbD_frameByte, BitVec.getLsbD_or, hj, decide_true, Bool.true_and]

theorem frameByte_xor (w x : FrameWord) (i : Nat) : frameByte (w ^^^ x) i = frameByte w i ^^^ frameByte x i := by
  apply BitVec.eq_of_getLsbD_eq
  intro j hj
  simp only [getLsbD_frameByte, BitVec.getLsbD_xor, hj, decide_true, Bool.true_and]

/-- A byte test of one bit reads that bit of W. -/
theorem frameByte_and_bit (w : FrameWord) (i j : Nat) (hj : j < 8) :
    frameByte w i &&& BitVec.twoPow 8 j = 0#8 ↔ w.getLsbD (8 * i + j) = false := by
  rw [BitVec.and_twoPow]
  have h := getLsbD_frameByte w i j
  simp only [hj, decide_true, Bool.true_and] at h
  rw [h]
  cases w.getLsbD (8 * i + j)
  · simp
  · simp only [if_true]
    constructor
    · intro h0
      have := congrArg (fun v => v.getLsbD j) h0
      simp [hj] at this
    · intro h; cases h

/-- A table row of one bit reads that bit of W. -/
theorem rowHolds_bit (w : FrameWord) (k : Nat) (hk : k < 64) :
    rowHolds (bitsRow (BitVec.twoPow 64 k)) w = w.getLsbD k := by
  simp only [rowHolds, bitsRow]
  rw [BitVec.and_twoPow]
  cases w.getLsbD k
  · simp only [if_false, Bool.false_eq_true, beq_eq_false_iff_ne, ne_eq]
    intro h0
    have := congrArg (fun v => v.getLsbD k) h0
    simp [hk] at this
  · simp

/-- A one-bit row of the table holds exactly where the rule's byte test does. -/
theorem rowHolds_iff_bitSet (w : FrameWord) (i j : Nat) (hi : i < 8) (hj : j < 8) :
    rowHolds (bitsRow (BitVec.twoPow 64 (8 * i + j))) w = true ↔ bitSet w i (BitVec.twoPow 8 j) := by
  rw [rowHolds_bit w _ (by omega), bitSet, ne_eq, frameByte_and_bit w i j hj, Bool.not_eq_false]

theorem byteHas_iff_bitSet (w : FrameWord) (i : Nat) (m : Byte) : byteHas w i m = true ↔ bitSet w i m := by
  simp [byteHas, bitSet]

@[simp] theorem rowHolds_elseRow (w : FrameWord) : rowHolds elseRow w = true := by
  simp [rowHolds, elseRow]

theorem rowHolds_div1000 (w : FrameWord) : rowHolds (bitsRow 0x0000000000000001#64) w = true ↔ bitSet w 0 0x01#8 :=
  rowHolds_iff_bitSet w 0 0 (by omega) (by omega)

theorem rowHolds_div100 (w : FrameWord) : rowHolds (bitsRow 0x0000000000000002#64) w = true ↔ bitSet w 0 0x02#8 :=
  rowHolds_iff_bitSet w 0 1 (by omega) (by omega)

theorem rowHolds_div10 (w : FrameWord) : rowHolds (bitsRow 0x0000000000000004#64) w = true ↔ bitSet w 0 0x04#8 :=
  rowHolds_iff_bitSet w 0 2 (by omega) (by omega)

theorem rowHolds_neg (w : FrameWord) : rowHolds (bitsRow 0x0000000000000040#64) w = true ↔ bitSet w 0 0x40#8 :=
  rowHolds_iff_bitSet w 0 6 (by omega) (by omega)

theorem rowHolds_nano (w : FrameWord) : rowHolds (bitsRow 0x0000000200000000#64) w = true ↔ bitSet w 4 0x02#8 :=
  rowHolds_iff_bitSet w 4 1 (by omega) (by omega)

theorem rowHolds_mega (w : FrameWord) : rowHolds (bitsRow 0x0000100000000000#64) w = true ↔ bitSet w 5 0x10#8 :=
  rowHolds_iff_bitSet w 5 4 (by omega) (by omega)

theorem rowHolds_kilo (w : FrameWord) : rowHolds (bitsRow 0x0000200000000000#64) w = true ↔ bitSet w 5 0x20#8 :=
  rowHolds_iff_bitSet w 5 5 (by omega) (by omega)

theorem rowHolds_milli (w : FrameWord) : rowHolds (bitsRow 0x0000400000000000#64) w = true ↔ bitSet w 5 0x40#8 :=
  rowHolds_iff_bitSet w 5 6 (by omega) (by omega)

theorem rowHolds_micro (w : FrameWord) : rowHolds (bitsRow 0x0000800000000000#64) w = true ↔ bitSet w 5 0x80#8 :=
  rowHolds_iff_bitSet w 5 7 (by omega) (by omega)

theorem rowHolds_vdiode (w : FrameWord) : rowHolds (bitsRow 0x0000040000000000#64) w = true ↔ bitSet w 5 0x04#8 :=
  rowHolds_iff_bitSet w 5 2 (by omega) (by omega)

theorem rowHolds_volt (w : FrameWord) : rowHolds (bitsRow 0x0080000000000000#64) w = true ↔ bitSet w 6 0x80#8 :=
  rowHolds_iff_bitSet w 6 7 (by omega) (by omega)

theorem rowHolds_ampere (w : FrameWord) : rowHolds (bitsRow 0x0040000000000000#64) w = true ↔ bitSet w 6 0x40#8 :=
  rowHolds_iff_bitSet w 6 6 (by omega) (by omega)

theorem rowHolds_degF (w : FrameWord) : rowHolds (bitsRow 0x0001000000000000#64) w = true ↔ bitSet w 6 0x01#8 :=
  rowHolds_iff_bitSet w 6 0 (by omega) (by omega)

theorem rowHolds_degC (w : FrameWord) : rowHolds (bitsRow 0x0002000000000000#64) w = true ↔ bitSet w 6 0x02#8 :=
  rowHolds_iff_bitSet w 6 1 (by omega) (by omega)

theorem rowHolds_farad (w : FrameWord) : rowHolds (bitsRow 0x0004000000000000#64) w = true ↔ bitSet w 6 0x04#8 :=
  rowHolds_iff_bitSet w 6 2 (by omega) (by omega)

theorem rowHolds_hertz (w : FrameWord) : rowHolds (bitsRow 0x0008000000000000#64) w = true ↔ bitSet w 6 0x08#8 :=
  rowHolds_iff_bitSet w 6 3 (by omega) (by omega)

theorem rowHolds_hfe (w : FrameWord) : rowHolds (bitsRow 0x0010000000000000#64) w = true ↔ bitSet w 6 0x10#8 :=
  rowHolds_iff_bitSet w 6 4 (by omega) (by omega)

theorem rowHolds_ac (w : FrameWord) : rowHolds (bitsRow 0x0000000008000000#64) w = true ↔ bitSet w 3 0x08#8 :=
  rowHolds_iff_bitSet w 3 3 (by omega) (by omega)

theorem rowHolds_dc (w : FrameWord) : rowHolds (bitsRow 0x0000000010000000#64) w = true ↔ bitSet w 3 0x10#8 :=
  rowHolds_iff_bitSet w 3 4 (by omega) (by omega)

/-- The Ω row holds exactly where all five bits of F[7] are set (R158). -/
theorem rowHolds_ohm (w : FrameWord) :
    rowHolds (bitsRow 0x3D00000000000000#64) w = true ↔ frameByte w 7 &&& 0x3D#8 = 0x3D#8 := by
  have hm : (0x3D00000000000000#64) = (0x3D#8).setWidth 64 <<< 56 := by decide
  simp only [rowHolds, bitsRow, beq_iff_eq]
  rw [hm]
  constructor
  · intro h
    apply BitVec.eq_of_getLsbD_eq
    intro j hj
    have := congrArg (fun v => v.getLsbD (56 + j)) h
    have h1 : 56 + j < 64 := by omega
    simp only [BitVec.getLsbD_and, BitVec.getLsbD_shiftLeft, BitVec.getLsbD_setWidth, h1, hj,
      getLsbD_frameByte] at this ⊢
    simpa [show 56 + j - 56 = j by omega, show j < 64 by omega, show ¬ (56 + j < 56) by omega] using this
  · intro h
    apply BitVec.eq_of_getLsbD_eq
    intro k hk
    by_cases h56 : k < 56
    · have low : ∀ k < 56, (0x3D00000000000000#64).getLsbD k = false := by decide
      rw [← hm, BitVec.getLsbD_and, low k h56, Bool.and_false]
    · have := congrArg (fun v => v.getLsbD (k - 56)) h
      have h1 : k - 56 < 8 := by omega
      simp only [BitVec.getLsbD_and, BitVec.getLsbD_shiftLeft, BitVec.getLsbD_setWidth, h1,
        getLsbD_frameByte] at this ⊢
      simpa [hk, h56, show k - 56 < 64 by omega, show 8 * 7 + (k - 56) = k by omega] using this

/-- The sentinel row holds exactly where F[1] = 0x4C and F[2] = 0x4F (R69, R121). -/
theorem rowHolds_sentinel (w : FrameWord) :
    rowHolds ⟨0x0000000000FFFF00#64, 0x00000000004F4C00#64⟩ w = true ↔
      frameByte w 1 = 0x4C#8 ∧ frameByte w 2 = 0x4F#8 := by
  have key : ∀ k < 64, (w &&& 0x0000000000FFFF00#64).getLsbD k = (decide (8 ≤ k ∧ k < 24) && w.getLsbD k) := by
    intro k hk
    have : (0x0000000000FFFF00#64).getLsbD k = decide (8 ≤ k ∧ k < 24) := by
      revert k; decide
    rw [BitVec.getLsbD_and, this, Bool.and_comm]
  have p1 : ∀ j < 8, (0x00000000004F4C00#64).getLsbD (8 + j) = (0x4C#8).getLsbD j := by decide
  have p2 : ∀ j < 8, (0x00000000004F4C00#64).getLsbD (16 + j) = (0x4F#8).getLsbD j := by decide
  have p0 : ∀ k < 64, ¬(8 ≤ k ∧ k < 24) → (0x00000000004F4C00#64).getLsbD k = false := by decide
  simp only [rowHolds, beq_iff_eq]
  constructor
  · intro h
    constructor <;> apply BitVec.eq_of_getLsbD_eq <;> intro j hj
    · have := congrArg (fun v => v.getLsbD (8 + j)) h
      simp only [key (8 + j) (by omega), p1 j hj] at this
      rw [getLsbD_frameByte, ← this]
      simp [hj]; intro; omega
    · have := congrArg (fun v => v.getLsbD (16 + j)) h
      simp only [key (16 + j) (by omega), p2 j hj] at this
      rw [getLsbD_frameByte, ← this]
      have : 16 + j < 24 := by omega
      have h8 : 8 ≤ 16 + j := by omega
      simp [hj, this, h8]
  · rintro ⟨h1, h2⟩
    apply BitVec.eq_of_getLsbD_eq
    intro k hk
    rw [key k hk]
    by_cases hr : 8 ≤ k ∧ k < 24
    · by_cases h16 : k < 16
      · have := congrArg (fun v => v.getLsbD (k - 8)) h1
        simp only [getLsbD_frameByte] at this
        have e := p1 (k - 8) (by omega)
        rw [show 8 + (k - 8) = k by omega] at e
        rw [e, ← this]
        simp [hr, show k - 8 < 8 by omega, show 8 + (k - 8) = k by omega]
      · have := congrArg (fun v => v.getLsbD (k - 16)) h2
        simp only [getLsbD_frameByte] at this
        have e := p2 (k - 16) (by omega)
        rw [show 16 + (k - 16) = k by omega] at e
        rw [e, ← this]
        simp [hr, show k - 16 < 8 by omega, show 16 + (k - 16) = k by omega]
    · rw [p0 k hk hr]; simp [hr]

end Sys2Proof.Laws
end

