-- ==== Sys2Proof/Laws/State.lean ====
section
/-! SUPPORT. What each named update of the state does to each field, true by rfl, so that no later proof unfolds a
record update. -/

namespace Sys2Proof.Laws

open Sys2Proof.Machine

@[simp] theorem respond_rdStatus (h : HostId) (r : Response) (s : State) : (respond h r s).rdStatus = s.rdStatus := rfl
@[simp] theorem respond_rdFrame (h : HostId) (r : Response) (s : State) : (respond h r s).rdFrame = s.rdFrame := rfl
@[simp] theorem respond_rdBuf (h : HostId) (r : Response) (s : State) : (respond h r s).rdBuf = s.rdBuf := rfl
@[simp] theorem respond_rdCount (h : HostId) (r : Response) (s : State) : (respond h r s).rdCount = s.rdCount := rfl
@[simp] theorem respond_rdOwner (h : HostId) (r : Response) (s : State) : (respond h r s).rdOwner = s.rdOwner := rfl
@[simp] theorem respond_stream (h : HostId) (r : Response) (s : State) : (respond h r s).stream = s.stream := rfl
@[simp] theorem respond_log (h : HostId) (r : Response) (s : State) : (respond h r s).log = s.log ++ [(h, r)] := rfl
@[simp] theorem respond_faults (h : HostId) (r : Response) (s : State) : (respond h r s).faults = s.faults := rfl
@[simp] theorem respond_refused (h : HostId) (r : Response) (s : State) : (respond h r s).refused = s.refused := rfl
@[simp] theorem respond_waiting (h : HostId) (r : Response) (s : State) : (respond h r s).waiting = s.waiting := rfl
@[simp] theorem respond_halted (h : HostId) (r : Response) (s : State) : (respond h r s).halted = s.halted := rfl
@[simp] theorem respond_schedule (h : HostId) (r : Response) (s : State) : (respond h r s).schedule = s.schedule := rfl
@[simp] theorem respond_issuer (h : HostId) (r : Response) (s : State) : (respond h r s).issuer = s.issuer := rfl
@[simp] theorem respond_portView (h : HostId) (r : Response) (s : State) : (respond h r s).portView = s.portView := rfl

@[simp] theorem takeFault_rdStatus (f : HostId → RecordedFault) (h : HostId) (s : State) :
    (takeFault f h s).rdStatus = s.rdStatus := rfl
@[simp] theorem takeFault_rdFrame (f : HostId → RecordedFault) (h : HostId) (s : State) :
    (takeFault f h s).rdFrame = s.rdFrame := rfl
@[simp] theorem takeFault_rdBuf (f : HostId → RecordedFault) (h : HostId) (s : State) :
    (takeFault f h s).rdBuf = s.rdBuf := rfl
@[simp] theorem takeFault_rdCount (f : HostId → RecordedFault) (h : HostId) (s : State) :
    (takeFault f h s).rdCount = s.rdCount := rfl
@[simp] theorem takeFault_rdOwner (f : HostId → RecordedFault) (h : HostId) (s : State) :
    (takeFault f h s).rdOwner = s.rdOwner := rfl
@[simp] theorem takeFault_stream (f : HostId → RecordedFault) (h : HostId) (s : State) :
    (takeFault f h s).stream = s.stream := rfl
@[simp] theorem takeFault_log (f : HostId → RecordedFault) (h : HostId) (s : State) :
    (takeFault f h s).log = s.log := rfl
@[simp] theorem takeFault_faults (f : HostId → RecordedFault) (h : HostId) (s : State) :
    (takeFault f h s).faults = s.faults ++ [f h] := rfl
@[simp] theorem takeFault_refused (f : HostId → RecordedFault) (h : HostId) (s : State) :
    (takeFault f h s).refused = s.refused := rfl
@[simp] theorem takeFault_waiting (f : HostId → RecordedFault) (h : HostId) (s : State) :
    (takeFault f h s).waiting = s.waiting := rfl
@[simp] theorem takeFault_halted (f : HostId → RecordedFault) (h : HostId) (s : State) :
    (takeFault f h s).halted = insertHost h s.halted := rfl
@[simp] theorem takeFault_schedule (f : HostId → RecordedFault) (h : HostId) (s : State) :
    (takeFault f h s).schedule = s.schedule := rfl
@[simp] theorem takeFault_issuer (f : HostId → RecordedFault) (h : HostId) (s : State) :
    (takeFault f h s).issuer = s.issuer := rfl
@[simp] theorem takeFault_portView (f : HostId → RecordedFault) (h : HostId) (s : State) :
    (takeFault f h s).portView = s.portView := rfl

@[simp] theorem takeRefusal_rdStatus (h : HostId) (s : State) : (takeRefusal h s).rdStatus = s.rdStatus := rfl
@[simp] theorem takeRefusal_rdFrame (h : HostId) (s : State) : (takeRefusal h s).rdFrame = s.rdFrame := rfl
@[simp] theorem takeRefusal_rdBuf (h : HostId) (s : State) : (takeRefusal h s).rdBuf = s.rdBuf := rfl
@[simp] theorem takeRefusal_rdCount (h : HostId) (s : State) : (takeRefusal h s).rdCount = s.rdCount := rfl
@[simp] theorem takeRefusal_rdOwner (h : HostId) (s : State) : (takeRefusal h s).rdOwner = s.rdOwner := rfl
@[simp] theorem takeRefusal_stream (h : HostId) (s : State) : (takeRefusal h s).stream = s.stream := rfl
@[simp] theorem takeRefusal_log (h : HostId) (s : State) : (takeRefusal h s).log = s.log := rfl
@[simp] theorem takeRefusal_faults (h : HostId) (s : State) : (takeRefusal h s).faults = s.faults := rfl
@[simp] theorem takeRefusal_refused (h : HostId) (s : State) : (takeRefusal h s).refused = true := rfl
@[simp] theorem takeRefusal_waiting (h : HostId) (s : State) : (takeRefusal h s).waiting = s.waiting := rfl
@[simp] theorem takeRefusal_halted (h : HostId) (s : State) : (takeRefusal h s).halted = insertHost h s.halted := rfl
@[simp] theorem takeRefusal_schedule (h : HostId) (s : State) : (takeRefusal h s).schedule = s.schedule := rfl
@[simp] theorem takeRefusal_issuer (h : HostId) (s : State) : (takeRefusal h s).issuer = s.issuer := rfl
@[simp] theorem takeRefusal_portView (h : HostId) (s : State) : (takeRefusal h s).portView = s.portView := rfl

@[simp] theorem startCall_rdStatus (h : HostId) (s : State) : (startCall h s).rdStatus = .busy := rfl
@[simp] theorem startCall_rdFrame (h : HostId) (s : State) : (startCall h s).rdFrame = none := rfl
@[simp] theorem startCall_rdBuf (h : HostId) (s : State) : (startCall h s).rdBuf = [] := rfl
@[simp] theorem startCall_rdCount (h : HostId) (s : State) : (startCall h s).rdCount = 0 := rfl
@[simp] theorem startCall_rdOwner (h : HostId) (s : State) : (startCall h s).rdOwner = some h := rfl
@[simp] theorem startCall_stream (h : HostId) (s : State) : (startCall h s).stream = s.stream := rfl
@[simp] theorem startCall_log (h : HostId) (s : State) : (startCall h s).log = s.log := rfl
@[simp] theorem startCall_faults (h : HostId) (s : State) : (startCall h s).faults = s.faults := rfl
@[simp] theorem startCall_refused (h : HostId) (s : State) : (startCall h s).refused = s.refused := rfl
@[simp] theorem startCall_waiting (h : HostId) (s : State) : (startCall h s).waiting = insertHost h s.waiting := rfl
@[simp] theorem startCall_halted (h : HostId) (s : State) : (startCall h s).halted = s.halted := rfl
@[simp] theorem startCall_schedule (h : HostId) (s : State) : (startCall h s).schedule = s.schedule := rfl
@[simp] theorem startCall_issuer (h : HostId) (s : State) : (startCall h s).issuer = s.issuer := rfl
@[simp] theorem startCall_portView (h : HostId) (s : State) : (startCall h s).portView = s.portView := rfl

@[simp] theorem resetCore_rdStatus (s : State) : (resetCore s).rdStatus = .none := rfl
@[simp] theorem resetCore_rdFrame (s : State) : (resetCore s).rdFrame = none := rfl
@[simp] theorem resetCore_rdBuf (s : State) : (resetCore s).rdBuf = [] := rfl
@[simp] theorem resetCore_rdCount (s : State) : (resetCore s).rdCount = 0 := rfl
@[simp] theorem resetCore_rdOwner (s : State) : (resetCore s).rdOwner = none := rfl
@[simp] theorem resetCore_stream (s : State) : (resetCore s).stream = s.stream := rfl
@[simp] theorem resetCore_log (s : State) : (resetCore s).log = [] := rfl
@[simp] theorem resetCore_faults (s : State) : (resetCore s).faults = [] := rfl
@[simp] theorem resetCore_refused (s : State) : (resetCore s).refused = false := rfl
@[simp] theorem resetCore_waiting (s : State) : (resetCore s).waiting = s.waiting := rfl
@[simp] theorem resetCore_halted (s : State) : (resetCore s).halted = s.halted := rfl
@[simp] theorem resetCore_schedule (s : State) : (resetCore s).schedule = s.schedule := rfl
@[simp] theorem resetCore_issuer (s : State) : (resetCore s).issuer = 1 := rfl
@[simp] theorem resetCore_portView (s : State) : (resetCore s).portView = none := rfl

end Sys2Proof.Laws
end

