-- ==== Sys2Proof/Laws/Ops.lean ====
section
/-! SUPPORT. What each shared operation can do, said once: hosts, the ends of a call, the FrameReader's step. -/

namespace Sys2Proof.Laws

open Sys2Proof.Machine

/-! ## Lists of hosts -/

theorem mem_insertHost (h k : HostId) (hs : List HostId) : k ∈ insertHost h hs ↔ k = h ∨ k ∈ hs := by
  induction hs with
  | nil => simp [insertHost]
  | cons x xs ih =>
    simp only [insertHost]
    split
    · simp
    · split
      · subst_vars; simp
      · simp only [List.mem_cons, ih]; tauto

theorem insertHost_ne_nil (h : HostId) (hs : List HostId) : insertHost h hs ≠ [] :=
  fun e => by have := (mem_insertHost h h hs).2 (.inl rfl); simp [e] at this

theorem pairwise_insertHost (h : HostId) (hs : List HostId) (p : hs.Pairwise (· < ·)) :
    (insertHost h hs).Pairwise (· < ·) := by
  induction hs with
  | nil => simp [insertHost]
  | cons x xs ih =>
    rw [List.pairwise_cons] at p
    simp only [insertHost]
    split
    case isTrue lt =>
      rw [List.pairwise_cons, List.pairwise_cons]
      refine ⟨fun y hy => ?_, p⟩
      rcases List.mem_cons.1 hy with rfl | hy
      · exact lt
      · exact lt.trans (p.1 y hy)
    case isFalse nlt =>
      split
      · rw [List.pairwise_cons]; exact p
      · rw [List.pairwise_cons]
        refine ⟨fun y hy => ?_, ih p.2⟩
        rcases (mem_insertHost h y xs).1 hy with rfl | hy
        · exact lt_of_le_of_ne (not_lt.1 nlt) (Ne.symm ‹_›)
        · exact p.1 y hy

theorem mem_removeHost (h k : HostId) (hs : List HostId) : k ∈ removeHost h hs ↔ k ∈ hs ∧ k ≠ h := by
  simp [removeHost]

theorem pairwise_removeHost (h : HostId) (hs : List HostId) (p : hs.Pairwise (· < ·)) :
    (removeHost h hs).Pairwise (· < ·) := p.filter _

theorem canMove_iff (h : HostId) (s : State) : canMove h s = true ↔ h ∉ s.waiting ∧ h ∉ s.halted := by
  simp [canMove]

theorem le_foldr_max (h : HostId) (hs : List HostId) (m : h ∈ hs) : h ≤ hs.foldr max 0 := by
  induction hs with
  | nil => simp at m
  | cons x xs ih =>
    rcases List.mem_cons.1 m with rfl | m
    · simp
    · simp [ih m]

/-- The host that withFetchWord issues a command with can move. -/
theorem freeHost_canMove (s : State) : canMove (freeHost s) s = true := by
  by_cases c : canMove s.issuer s = true
  · simp [freeHost, c]
  · have e : freeHost s = (s.waiting ++ s.halted).foldr max 0 + 1 := by simp [freeHost, c]
    rw [e, canMove_iff]
    constructor <;> intro m
    · exact Nat.not_succ_le_self _ (le_foldr_max _ (s.waiting ++ s.halted) (List.mem_append_left _ m))
    · exact Nat.not_succ_le_self _ (le_foldr_max _ (s.waiting ++ s.halted) (List.mem_append_right _ m))

/-! ## The ends of a call and the FrameReader's step -/

/-- endCall, with an owner: the response goes to it, and it is blocked no more (R104–R106, R209). -/
theorem endCall_owner (status : RdStatus) (r : Response) (s : State) (h : HostId) (o : s.rdOwner = some h) :
    endCall status r s =
      .next { s with
        rdStatus := status, rdBuf := [], rdCount := 0, log := s.log ++ [(h, r)], waiting := removeHost h s.waiting } := by
  simp [endCall, o, respond]

/-- receiveByte answers one of two ways (R104). -/
theorem receiveByte_cases (b : Byte) (s : State) :
    (s.rdCount + 1 = 8 ∧ receiveByte b s =
      endCall .ok (.frame (frameOfBuffer (bufferWith b s)))
        { s with rdFrame := some (frameOfBuffer (bufferWith b s)) }) ∨
    (s.rdCount + 1 ≠ 8 ∧ receiveByte b s =
      .next { s with rdBuf := bufferWith b s, rdCount := s.rdCount + 1 }) := by
  by_cases e : s.rdCount + 1 = 8
  · exact .inl ⟨e, by simp [receiveByte, Config.frameBytes, e]⟩
  · exact .inr ⟨e, by simp [receiveByte, Config.frameBytes, e]⟩

/-- Where rd_buf holds rd_count bytes, a received byte goes to its end (R26, R104). -/
theorem bufferWith_of_counted (b : Byte) (s : State) (c : s.rdBuf.length = s.rdCount) :
    bufferWith b s = s.rdBuf ++ [b] := by
  rw [bufferWith, List.take_of_length_le (by omega)]

/-- The FrameReader's step with an event offered during a call (R102). -/
theorem readerStep_busy (s : State) (e : StreamEvent) (es : List StreamEvent) (b : s.rdStatus = .busy)
    (st : s.stream = e :: es) : readerStep s = consumeEvent e { s with stream := es } := by
  simp [readerStep, b, st]

/-- The FrameReader's step where it waits (R101, R108). -/
theorem readerStep_waits (s : State) (w : s.rdStatus ≠ .busy ∨ s.stream = []) : readerStep s = .next s := by
  simp only [readerStep]
  split <;> simp_all

/-! ## Bytes packed into words -/

/-- Byte i of a packed word is byte i of the list, 0 beyond it (R10, R44, R154). -/
theorem extract_packBytes (n : Nat) (bs : List Byte) (i : Nat) (fits : 8 * i + 8 ≤ n) :
    (packBytes n bs).extractLsb' (8 * i) 8 = bs.getD i 0 := by
  induction bs generalizing i with
  | nil => simp [packBytes]
  | cons b bs ih =>
    apply BitVec.eq_of_getLsbD_eq
    intro j hj
    cases i with
    | zero =>
      simp only [packBytes, List.getD_cons_zero]
      simp [hj, show j < n by omega]
    | succ i =>
      have := congrArg (fun v => v.getLsbD j) (ih i (by omega))
      simp only [packBytes, List.getD_cons_succ]
      rw [← this]
      have off : b.getLsbD (8 * (i + 1) + j) = false := BitVec.getLsbD_of_ge _ _ (by omega)
      simp [hj, off, show 8 * (i + 1) + j < n by omega, show ¬ (8 * (i + 1) + j < 8) by omega,
        show 8 * (i + 1) + j - 8 = 8 * i + j by omega, BitVec.getLsbD_eq_getElem (show 8 * i + j < n by omega)]

theorem frameByte_frameOfBuffer (bs : List Byte) (i : Nat) (hi : i < 8) :
    frameByte (frameOfBuffer bs) i = bs.getD i 0 := extract_packBytes 64 bs i (by omega)

end Sys2Proof.Laws
end

