-- ==== Sys2Proof/Laws/Rows.lean ====
section
/-! SUPPORT. The row a group selects, read from the table's masks, as the chain of the rule's byte tests (R13, R75). -/

namespace Sys2Proof.Laws

open Sys2Proof.Machine

theorem selectedPriority_overload (w : FrameWord) :
    selectedPriority .overload w = if frameByte w 1 = 0x4C#8 ∧ frameByte w 2 = 0x4F#8 then 1 else 2 := by
  simp only [selectedPriority, rowsOf, firstMatch, rowHolds_sentinel, rowHolds_elseRow, if_true]

theorem selectedPriority_divisor (w : FrameWord) :
    selectedPriority .divisor w =
      if bitSet w 0 0x01#8 then 1 else if bitSet w 0 0x02#8 then 2 else if bitSet w 0 0x04#8 then 3 else 4 := by
  simp only [selectedPriority, rowsOf, firstMatch, rowHolds_div1000, rowHolds_div100, rowHolds_div10,
    rowHolds_elseRow, if_true]

theorem selectedPriority_sign (w : FrameWord) :
    selectedPriority .sign w = if bitSet w 0 0x40#8 then 1 else 2 := by
  simp only [selectedPriority, rowsOf, firstMatch, rowHolds_neg, rowHolds_elseRow, if_true]

theorem selectedPriority_metricPrefix (w : FrameWord) :
    selectedPriority .metricPrefix w =
      if bitSet w 4 0x02#8 then 1 else if bitSet w 5 0x10#8 then 2 else if bitSet w 5 0x20#8 then 3
      else if bitSet w 5 0x40#8 then 4 else if bitSet w 5 0x80#8 then 5 else 6 := by
  simp only [selectedPriority, rowsOf, firstMatch, rowHolds_nano, rowHolds_mega, rowHolds_kilo, rowHolds_milli,
    rowHolds_micro, rowHolds_elseRow, if_true]

theorem selectedPriority_baseUnit (w : FrameWord) :
    selectedPriority .baseUnit w =
      if bitSet w 5 0x04#8 then 1 else if bitSet w 6 0x80#8 then 2 else if bitSet w 6 0x40#8 then 3
      else if frameByte w 7 &&& 0x3D#8 = 0x3D#8 then 4 else if bitSet w 6 0x01#8 then 5
      else if bitSet w 6 0x02#8 then 6 else if bitSet w 6 0x04#8 then 7 else if bitSet w 6 0x08#8 then 8
      else if bitSet w 6 0x10#8 then 9 else 10 := by
  simp only [selectedPriority, rowsOf, firstMatch, rowHolds_vdiode, rowHolds_volt, rowHolds_ampere, rowHolds_ohm,
    rowHolds_degF, rowHolds_degC, rowHolds_farad, rowHolds_hertz, rowHolds_hfe, rowHolds_elseRow, if_true]

theorem selectedPriority_suffix (w : FrameWord) :
    selectedPriority .suffix w = if bitSet w 3 0x08#8 then 1 else if bitSet w 3 0x10#8 then 2 else 3 := by
  simp only [selectedPriority, rowsOf, firstMatch, rowHolds_ac, rowHolds_dc, rowHolds_elseRow, if_true]

theorem selectedPriority_digits (w : FrameWord) : selectedPriority .digits w = 1 := by
  simp only [selectedPriority, rowsOf, firstMatch, rowHolds_elseRow, if_true]

end Sys2Proof.Laws
end

