-- ==== Sys2Proof/Laws/PerInstr.lean ====
section
/-! SUPPORT. Per instruction: the word a well-formed instruction is encoded in meets the condition of its row of
spec/opcode_table.json, mask and match copied from the table row by row (R71, R72, R75). -/

namespace Sys2Proof.Laws.EncodeMatchesRow

open Sys2Proof.Machine

/-- The bits of an encoded instruction, numbered as the table numbers them. -/
def rawBits : RawInstr → Nat
  | .command c => c.toNat
  | .frame _ w => w.toNat

/-- A row's mask and match in spec/opcode_table.json. -/
def maskAndMatch : Instr → Nat × Nat
  | .nextFrame _ => (0xF, 0x0)
  | .decodeRd _ => (0xF, 0x1)
  | .decodeValueRd _ => (0xF, 0x2)
  | .decodeUnitRd _ => (0xF, 0x3)
  | .decodeImm _ => (0xF, 0x5)
  | .decodeValueImm _ => (0xF, 0x6)
  | .decodeUnitImm _ => (0xF, 0x7)
  | .reserved4 _ => (0xF, 0x4)
  | .reserved8 _ _ => (0x8, 0x8)
  | .overloadSentinel _ => (0x0000000000FFFF00, 0x00000000004F4C00)
  | .overloadNone _ => (0x0000000000000000, 0x0000000000000000)
  | .divisorDiv1000 _ => (0x0000000000000001, 0x0000000000000001)
  | .divisorDiv100 _ => (0x0000000000000002, 0x0000000000000002)
  | .divisorDiv10 _ => (0x0000000000000004, 0x0000000000000004)
  | .divisorNone _ => (0x0000000000000000, 0x0000000000000000)
  | .signNeg _ => (0x0000000000000040, 0x0000000000000040)
  | .signPos _ => (0x0000000000000000, 0x0000000000000000)
  | .prefixNano _ => (0x0000000200000000, 0x0000000200000000)
  | .prefixMega _ => (0x0000100000000000, 0x0000100000000000)
  | .prefixKilo _ => (0x0000200000000000, 0x0000200000000000)
  | .prefixMilli _ => (0x0000400000000000, 0x0000400000000000)
  | .prefixMicro _ => (0x0000800000000000, 0x0000800000000000)
  | .prefixNone _ => (0x0000000000000000, 0x0000000000000000)
  | .baseUnitVdiode _ => (0x0000040000000000, 0x0000040000000000)
  | .baseUnitV _ => (0x0080000000000000, 0x0080000000000000)
  | .baseUnitA _ => (0x0040000000000000, 0x0040000000000000)
  | .baseUnitOhm _ => (0x3D00000000000000, 0x3D00000000000000)
  | .baseUnitDegF _ => (0x0001000000000000, 0x0001000000000000)
  | .baseUnitDegC _ => (0x0002000000000000, 0x0002000000000000)
  | .baseUnitFarad _ => (0x0004000000000000, 0x0004000000000000)
  | .baseUnitHz _ => (0x0008000000000000, 0x0008000000000000)
  | .baseUnitHfe _ => (0x0010000000000000, 0x0010000000000000)
  | .baseUnitUnknown _ => (0x0000000000000000, 0x0000000000000000)
  | .suffixAc _ => (0x0000000008000000, 0x0000000008000000)
  | .suffixDc _ => (0x0000000010000000, 0x0000000010000000)
  | .suffixNone _ => (0x0000000000000000, 0x0000000000000000)
  | .digits _ => (0x0000000000000000, 0x0000000000000000)

/-- The condition of the instruction's row holds of its word. -/
def Statement (i : Instr) : Prop :=
  WellFormed i = true → rawBits (encode i) &&& (maskAndMatch i).1 = (maskAndMatch i).2

theorem command_bits (cmd : BitVec 4) (w : FrameWord) (m : BitVec 4) :
    (commandWord cmd w).toNat &&& m.toNat = (cmd &&& m).toNat := by
  have e : commandWord cmd w &&& m.setWidth 68 = (cmd &&& m).setWidth 68 := by
    apply BitVec.eq_of_getLsbD_eq
    intro k hk
    simp only [commandWord, BitVec.getLsbD_and, BitVec.getLsbD_or, BitVec.getLsbD_setWidth, BitVec.getLsbD_shiftLeft]
    by_cases h : k < 4
    · simp [h, hk]
    · simp [BitVec.getLsbD_of_ge m k (by omega)]
  have t := congrArg BitVec.toNat e
  rw [BitVec.toNat_and, BitVec.toNat_setWidth, BitVec.toNat_setWidth, Nat.mod_eq_of_lt (by omega),
    Nat.mod_eq_of_lt (by omega)] at t
  exact t

theorem frame_bits (w : FrameWord) (r : Row) (h : rowHolds r w = true) :
    w.toNat &&& r.mask.toNat = r.pattern.toNat := by
  have e : w &&& r.mask = r.pattern := by simpa [rowHolds] using h
  rw [← BitVec.toNat_and, e]

theorem else_bits (w : FrameWord) : w.toNat &&& 0x0000000000000000 = 0x0000000000000000 := Nat.and_zero _

theorem onlyFirst_holds (cs : List Bool) (k : Nat) (h : onlyFirst cs k = true) : cs.getD k false = true := by
  simp only [onlyFirst, Bool.and_eq_true] at h
  exact h.1

theorem bit_of_byteHas (w : FrameWord) (i : Nat) (m : Byte) (h : byteHas w i m = true) : bitSet w i m :=
  (byteHas_iff_bitSet w i m).1 h

theorem nextFrame (w : FrameWord) : Statement (.nextFrame w) := fun _ => command_bits 0x0#4 w 0xF#4

theorem decodeRd (w : FrameWord) : Statement (.decodeRd w) := fun _ => command_bits 0x1#4 w 0xF#4

theorem decodeValueRd (w : FrameWord) : Statement (.decodeValueRd w) := fun _ => command_bits 0x2#4 w 0xF#4

theorem decodeUnitRd (w : FrameWord) : Statement (.decodeUnitRd w) := fun _ => command_bits 0x3#4 w 0xF#4

theorem decodeImm (w : FrameWord) : Statement (.decodeImm w) := fun _ => command_bits 0x5#4 w 0xF#4

theorem decodeValueImm (w : FrameWord) : Statement (.decodeValueImm w) := fun _ => command_bits 0x6#4 w 0xF#4

theorem decodeUnitImm (w : FrameWord) : Statement (.decodeUnitImm w) := fun _ => command_bits 0x7#4 w 0xF#4

theorem reserved4 (w : FrameWord) : Statement (.reserved4 w) := fun _ => command_bits 0x4#4 w 0xF#4

theorem reserved8 (low : BitVec 3) (w : FrameWord) : Statement (.reserved8 low w) := fun _ => by
  have top : ∀ l : BitVec 3, ((1#1 ++ l : BitVec 4) &&& 0x8#4).toNat = 0x8 := by decide
  exact (command_bits (1#1 ++ low) w 0x8#4).trans (top low)

theorem overloadSentinel (w : FrameWord) : Statement (.overloadSentinel w) := fun h =>
  frame_bits w _ ((rowHolds_sentinel w).2 (by simpa [WellFormed, sentinelBytes] using h))

theorem overloadNone (w : FrameWord) : Statement (.overloadNone w) := fun _ => else_bits w

theorem divisorDiv1000 (w : FrameWord) : Statement (.divisorDiv1000 w) := fun h =>
  frame_bits w _ ((rowHolds_div1000 w).2 (bit_of_byteHas w _ _ h))

theorem divisorDiv100 (w : FrameWord) : Statement (.divisorDiv100 w) := fun h =>
  frame_bits w _ ((rowHolds_div100 w).2 (bit_of_byteHas w _ _ (Bool.and_eq_true_iff.1 h).1))

theorem divisorDiv10 (w : FrameWord) : Statement (.divisorDiv10 w) := fun h =>
  frame_bits w _ ((rowHolds_div10 w).2
    (bit_of_byteHas w _ _ (Bool.and_eq_true_iff.1 (Bool.and_eq_true_iff.1 h).1).1))

theorem divisorNone (w : FrameWord) : Statement (.divisorNone w) := fun _ => else_bits w

theorem signNeg (w : FrameWord) : Statement (.signNeg w) := fun h =>
  frame_bits w _ ((rowHolds_neg w).2 (bit_of_byteHas w _ _ h))

theorem signPos (w : FrameWord) : Statement (.signPos w) := fun _ => else_bits w

theorem prefixNano (w : FrameWord) : Statement (.prefixNano w) := fun h =>
  frame_bits w _ ((rowHolds_nano w).2 (bit_of_byteHas w _ _ (onlyFirst_holds _ _ h)))

theorem prefixMega (w : FrameWord) : Statement (.prefixMega w) := fun h =>
  frame_bits w _ ((rowHolds_mega w).2 (bit_of_byteHas w _ _ (onlyFirst_holds _ _ h)))

theorem prefixKilo (w : FrameWord) : Statement (.prefixKilo w) := fun h =>
  frame_bits w _ ((rowHolds_kilo w).2 (bit_of_byteHas w _ _ (onlyFirst_holds _ _ h)))

theorem prefixMilli (w : FrameWord) : Statement (.prefixMilli w) := fun h =>
  frame_bits w _ ((rowHolds_milli w).2 (bit_of_byteHas w _ _ (onlyFirst_holds _ _ h)))

theorem prefixMicro (w : FrameWord) : Statement (.prefixMicro w) := fun h =>
  frame_bits w _ ((rowHolds_micro w).2 (bit_of_byteHas w _ _ (onlyFirst_holds _ _ h)))

theorem prefixNone (w : FrameWord) : Statement (.prefixNone w) := fun _ => else_bits w

theorem baseUnitVdiode (w : FrameWord) : Statement (.baseUnitVdiode w) := fun h =>
  frame_bits w _ ((rowHolds_vdiode w).2 (bit_of_byteHas w _ _ (onlyFirst_holds _ _ h)))

theorem baseUnitV (w : FrameWord) : Statement (.baseUnitV w) := fun h =>
  frame_bits w _ ((rowHolds_volt w).2 (bit_of_byteHas w _ _ (onlyFirst_holds _ _ h)))

theorem baseUnitA (w : FrameWord) : Statement (.baseUnitA w) := fun h =>
  frame_bits w _ ((rowHolds_ampere w).2 (bit_of_byteHas w _ _ (onlyFirst_holds _ _ h)))

theorem baseUnitOhm (w : FrameWord) : Statement (.baseUnitOhm w) := fun h =>
  frame_bits w _ ((rowHolds_ohm w).2 (eq_of_beq (onlyFirst_holds _ _ h)))

theorem baseUnitDegF (w : FrameWord) : Statement (.baseUnitDegF w) := fun h =>
  frame_bits w _ ((rowHolds_degF w).2 (bit_of_byteHas w _ _ (onlyFirst_holds _ _ h)))

theorem baseUnitDegC (w : FrameWord) : Statement (.baseUnitDegC w) := fun h =>
  frame_bits w _ ((rowHolds_degC w).2 (bit_of_byteHas w _ _ (onlyFirst_holds _ _ h)))

theorem baseUnitFarad (w : FrameWord) : Statement (.baseUnitFarad w) := fun h =>
  frame_bits w _ ((rowHolds_farad w).2 (bit_of_byteHas w _ _ (onlyFirst_holds _ _ h)))

theorem baseUnitHz (w : FrameWord) : Statement (.baseUnitHz w) := fun h =>
  frame_bits w _ ((rowHolds_hertz w).2 (bit_of_byteHas w _ _ (onlyFirst_holds _ _ h)))

theorem baseUnitHfe (w : FrameWord) : Statement (.baseUnitHfe w) := fun h =>
  frame_bits w _ ((rowHolds_hfe w).2 (bit_of_byteHas w _ _ (onlyFirst_holds _ _ h)))

theorem baseUnitUnknown (w : FrameWord) : Statement (.baseUnitUnknown w) := fun _ => else_bits w

theorem suffixAc (w : FrameWord) : Statement (.suffixAc w) := fun h =>
  frame_bits w _ ((rowHolds_ac w).2 (bit_of_byteHas w _ _ h))

theorem suffixDc (w : FrameWord) : Statement (.suffixDc w) := fun h =>
  frame_bits w _ ((rowHolds_dc w).2 (bit_of_byteHas w _ _ (Bool.and_eq_true_iff.1 h).1))

theorem suffixNone (w : FrameWord) : Statement (.suffixNone w) := fun _ => else_bits w

theorem digits (w : FrameWord) : Statement (.digits w) := fun _ => else_bits w

end Sys2Proof.Laws.EncodeMatchesRow
end

