-- ==== Sys2Proof/Laws/Step.lean ====
section
/-! SUPPORT. What exec and step can do, said once: every case of theirs, so that a proof about them is a short case
analysis and unfolds neither. -/

namespace Sys2Proof.Laws

open Sys2Proof.Machine

/-- Every way exec can answer: a call starts (only by NEXT_FRAME, outside a call), a fault is recorded, a response is
given, a refusal is marked, or the ports are observed. -/
theorem exec_cases (i : Instr) (s : State) :
    (∃ w, i = .nextFrame w ∧ s.rdStatus ≠ .busy ∧ exec i s = .next (startCall s.issuer s)) ∨
    (exec i s = .next (takeFault .concurrentRead s.issuer s)) ∨
    (exec i s = .next (takeFault .noFrame s.issuer s)) ∨
    (∃ r, exec i s = .next (respond s.issuer r s)) ∨
    (exec i s = .next (takeRefusal s.issuer s)) ∨
    (∃ v, exec i s = .next { s with portView := some v }) := by
  cases i
  case nextFrame w =>
    by_cases b : s.rdStatus = .busy
    · exact .inr (.inl (by simp [exec, execNextFrame, b]))
    · exact .inl ⟨w, rfl, b, by simp [exec, execNextFrame, b]⟩
  case decodeRd w =>
    cases f : s.rdFrame with
    | none => exact .inr (.inr (.inl (by simp [exec, execDecodeRd, decodeOf, frameOfRd, f])))
    | some x => exact .inr (.inr (.inr (.inl ⟨measurement x, by simp [exec, execDecodeRd, decodeOf, frameOfRd, f]⟩)))
  case decodeValueRd w =>
    cases f : s.rdFrame with
    | none => exact .inr (.inr (.inl (by simp [exec, execDecodeValueRd, decodeValueOf, frameOfRd, f])))
    | some x =>
      exact .inr (.inr (.inr (.inl
        ⟨.value (decodeValue x), by simp [exec, execDecodeValueRd, decodeValueOf, frameOfRd, f]⟩)))
  case decodeUnitRd w =>
    cases f : s.rdFrame with
    | none => exact .inr (.inr (.inl (by simp [exec, execDecodeUnitRd, decodeUnitOf, frameOfRd, f])))
    | some x =>
      exact .inr (.inr (.inr (.inl
        ⟨.unit (decodeUnit x), by simp [exec, execDecodeUnitRd, decodeUnitOf, frameOfRd, f]⟩)))
  case decodeImm w => exact .inr (.inr (.inr (.inl ⟨_, rfl⟩)))
  case decodeValueImm w => exact .inr (.inr (.inr (.inl ⟨_, rfl⟩)))
  case decodeUnitImm w => exact .inr (.inr (.inr (.inl ⟨_, rfl⟩)))
  case reserved4 w => exact .inr (.inr (.inr (.inr (.inl rfl))))
  case reserved8 low w => exact .inr (.inr (.inr (.inr (.inl rfl))))
  all_goals exact .inr (.inr (.inr (.inr (.inr ⟨_, rfl⟩))))

/-- Every way a step can go: no turn is left, a host that cannot move is passed over, a command or a probe runs its
instruction, the FrameReader has its turn, or the core is reset. -/
theorem step_cases (s : State) :
    (s.schedule = [] ∧ step s = .next s) ∨
    (∃ h c rest, s.schedule = .command h c :: rest ∧ canMove h s = false ∧
      step s = .next { s with schedule := rest }) ∨
    (∃ h c rest, s.schedule = .command h c :: rest ∧ canMove h s = true ∧
      step s = exec (decodeCommand c) { s with schedule := rest, issuer := h }) ∨
    (∃ w g rest, s.schedule = .probe w g :: rest ∧
      step s = exec (decodeRow g w) { s with schedule := rest }) ∨
    (∃ rest, s.schedule = .reader :: rest ∧ step s = readerStep { s with schedule := rest }) ∨
    (∃ rest, s.schedule = .reset :: rest ∧ step s = .next (resetCore { s with schedule := rest })) := by
  rcases e : s.schedule with _ | ⟨u, rest⟩
  · exact .inl ⟨rfl, by simp [step, nextAction, e]⟩
  · cases u with
    | command h c =>
      cases m : canMove h s
      · exact .inr (.inl ⟨h, c, rest, rfl, m, by simp [step, nextAction, e, m]⟩)
      · exact .inr (.inr (.inl ⟨h, c, rest, rfl, m, by simp [step, nextAction, e, m, decode]⟩))
    | reader => exact .inr (.inr (.inr (.inr (.inl ⟨rest, rfl, by simp [step, nextAction, e]⟩))))
    | reset => exact .inr (.inr (.inr (.inr (.inr ⟨rest, rfl, by simp [step, nextAction, e]⟩))))
    | probe w g => exact .inr (.inr (.inr (.inl ⟨w, g, rest, rfl, by simp [step, nextAction, e, decode]⟩)))

/-- A call's step with an owner and rd_count bytes held: one more byte is held, or the call ends with one response to
the owner (R104–R106). -/
theorem consumeEvent_cases (e : StreamEvent) (s : State) (h : HostId) (o : s.rdOwner = some h) :
    (∃ b, e = .byte b ∧ s.rdCount + 1 ≠ 8 ∧ consumeEvent e s =
      .next { s with rdBuf := bufferWith b s, rdCount := s.rdCount + 1 }) ∨
    (∃ b, e = .byte b ∧ s.rdCount + 1 = 8 ∧ consumeEvent e s =
      .next { s with
        rdStatus := .ok, rdFrame := some (frameOfBuffer (bufferWith b s)), rdBuf := [], rdCount := 0,
        log := s.log ++ [(h, .frame (frameOfBuffer (bufferWith b s)))], waiting := removeHost h s.waiting }) ∨
    (e = .endOfData ∧ consumeEvent e s =
      .next { s with
        rdStatus := .shortRead, rdBuf := [], rdCount := 0, log := s.log ++ [(h, .shortReadError)],
        waiting := removeHost h s.waiting }) ∨
    (e = .fail ∧ consumeEvent e s =
      .next { s with
        rdStatus := .ioError, rdBuf := [], rdCount := 0, log := s.log ++ [(h, .ioError)],
        waiting := removeHost h s.waiting }) := by
  cases e with
  | byte b =>
    rcases receiveByte_cases b s with ⟨c, r⟩ | ⟨c, r⟩
    · refine .inr (.inl ⟨b, rfl, c, ?_⟩)
      rw [consumeEvent, r, endCall_owner _ _ _ h (by exact o)]
    · exact .inl ⟨b, rfl, c, r⟩
  | endOfData => exact .inr (.inr (.inl ⟨rfl, by rw [consumeEvent, raiseShortRead, endCall_owner _ _ _ h o]⟩))
  | fail => exact .inr (.inr (.inr ⟨rfl, by rw [consumeEvent, raiseIoError, endCall_owner _ _ _ h o]⟩))

/-! ## Runs -/

theorem runSteps_succ (n : Nat) (s t : State) (h : step s = .next t) : runSteps (n + 1) s = runSteps n t := by
  simp only [runSteps, h]

theorem coreRun_succ (M : Host.Core) (n : Nat) (s t : M.State) (h : M.step s = .next t) :
    M.run (n + 1) s = M.run n t := by
  simp only [Host.Core.run, h]

theorem coreRun_fault (M : Host.Core) (n : Nat) (s : M.State) (r : M.Fault) (h : M.step s = .fault r) :
    M.run (n + 1) s = .fault r := by
  simp only [Host.Core.run, h]

theorem coreRun_refused (M : Host.Core) (n : Nat) (s : M.State) (r : M.Refusal) (h : M.step s = .refused r) :
    M.run (n + 1) s = .refused r := by
  simp only [Host.Core.run, h]

/-- runSteps is the host's run of this machine. -/
theorem runSteps_eq_core_run (n : Nat) (s : State) : runSteps n s = core.run n s := by
  induction n generalizing s with
  | zero => rfl
  | succ n ih =>
    cases e : step s with
    | next t => exact (runSteps_succ n s t e).trans ((ih t).trans (coreRun_succ core n s t e).symm)
    | fault r =>
      have f : runSteps (n + 1) s = .fault r := by simp only [runSteps, e]
      exact f.trans (coreRun_fault core n s r e).symm
    | refused r =>
      have f : runSteps (n + 1) s = .refused r := by simp only [runSteps, e]
      exact f.trans (coreRun_refused core n s r e).symm

end Sys2Proof.Laws
end

