-- ==== Sys2Proof/Tests/Slice0.lean ====
section
/-! SUPPORT. The model's own tests: well-formedness, decoding of words written out from the spec's encodings, single steps
against the vectors of `95_test_vectors.md`, and for every statement with hypotheses a witness that meets them. -/

namespace Sys2Proof.Tests

open Sys2Proof.Machine

/-- The answer is a next state of which p holds. -/
def nextWhere (r : Result) (p : State → Bool) : Bool :=
  match r with
  | .next s => p s
  | _ => false

/-- The frame of scenario S1. -/
def frameS1 : FrameWord := 0x0080000010341200#64

/-- The frame of scenario S2. -/
def frameS2 : FrameWord := 0x0040000008500001#64

/-- The frame of scenario S3, the sentinel with unit Hz. -/
def frameS3 : FrameWord := 0x00080000004F4C00#64

/-- A call of host h1 in progress with the bytes received so far. -/
def busyWith (bytes : List Byte) : State :=
  { State.reset with
    rdStatus := .busy, rdOwner := some 1, rdBuf := bytes, rdCount := bytes.length, waiting := [1] }

/-- A frame delivered to rd_frame. -/
def holding (w : FrameWord) : State := { State.reset with rdStatus := .ok, rdFrame := some w }

/-- Seven bytes. -/
def seven : List Byte := [0x00, 0x12, 0x34, 0x10, 0x00, 0x00, 0x80]

/-! ## WellFormed: each row refuses a frame on which its group selects another row -/

theorem test_illformed_overload :
    WellFormed (.overloadSentinel 0#64) = false
      ∧ WellFormed (.overloadSentinel 0x4C4F00#64) = false
      ∧ WellFormed (.overloadNone 0x4F4C00#64) = false := by decide

theorem test_illformed_divisor :
    WellFormed (.divisorDiv1000 0x06#64) = false
      ∧ WellFormed (.divisorDiv100 0x03#64) = false
      ∧ WellFormed (.divisorDiv100 0x04#64) = false
      ∧ WellFormed (.divisorDiv10 0x05#64) = false
      ∧ WellFormed (.divisorDiv10 0x06#64) = false
      ∧ WellFormed (.divisorNone 0x04#64) = false := by decide

theorem test_illformed_sign :
    WellFormed (.signNeg 0xBF#64) = false
      ∧ WellFormed (.signPos 0x40#64) = false := by decide

theorem test_illformed_prefix :
    WellFormed (.prefixNano 0x0000F00000000000#64) = false
      ∧ WellFormed (.prefixMega 0x0000100200000000#64) = false
      ∧ WellFormed (.prefixKilo 0x0000300000000000#64) = false
      ∧ WellFormed (.prefixMilli 0x0000600000000000#64) = false
      ∧ WellFormed (.prefixMicro 0x0000C00000000000#64) = false
      ∧ WellFormed (.prefixNone 0x0000800000000000#64) = false := by decide

theorem test_illformed_base_unit_first :
    WellFormed (.baseUnitVdiode 0x0080000000000000#64) = false
      ∧ WellFormed (.baseUnitV 0x0080040000000000#64) = false
      ∧ WellFormed (.baseUnitA 0x00C0000000000000#64) = false
      ∧ WellFormed (.baseUnitOhm 0x3C00000000000000#64) = false
      ∧ WellFormed (.baseUnitOhm 0x3D40000000000000#64) = false := by decide

theorem test_illformed_base_unit_last :
    WellFormed (.baseUnitDegF 0x3D01000000000000#64) = false
      ∧ WellFormed (.baseUnitDegC 0x0003000000000000#64) = false
      ∧ WellFormed (.baseUnitFarad 0x0006000000000000#64) = false
      ∧ WellFormed (.baseUnitHz 0x000C000000000000#64) = false
      ∧ WellFormed (.baseUnitHfe 0x0018000000000000#64) = false
      ∧ WellFormed (.baseUnitUnknown 0x0010000000000000#64) = false := by decide

theorem test_illformed_suffix :
    WellFormed (.suffixAc 0x0000000010000000#64) = false
      ∧ WellFormed (.suffixDc 0x0000000018000000#64) = false
      ∧ WellFormed (.suffixNone 0x0000000008000000#64) = false := by decide

/-! ## Decoding: words written out bit by bit from R60, R70, R71, R72, R75 -/

/-- Vectors VC01–VC03, VC13, VM01 and program P2; C = (W << 4) | cmd. -/
theorem test_decode_commands :
    decodeCommand 0xABCDEF01234567890#68 = .nextFrame 0xABCDEF0123456789#64
      ∧ decodeCommand 0x00000000000000001#68 = .decodeRd 0
      ∧ decodeCommand 0x00000000000000002#68 = .decodeValueRd 0
      ∧ decodeCommand 0x00000000000000003#68 = .decodeUnitRd 0
      ∧ decodeCommand 0x00800000103412005#68 = .decodeImm frameS1
      ∧ decodeCommand 0x00008000009999416#68 = .decodeValueImm 0x0000800000999941#64
      ∧ decodeCommand 0x00400000085000017#68 = .decodeUnitImm frameS2 := by decide

/-- Program P5 and R72: 0x4 and 0x8 to 0xF are reserved. -/
theorem test_decode_reserved :
    decodeCommand 0x00080000004F4C004#68 = .reserved4 frameS3
      ∧ decodeCommand 0x00000000000000008#68 = .reserved8 0 0
      ∧ decodeCommand 0x0000000000000001F#68 = .reserved8 7 1 := by decide

/-- VV03, VV04. -/
theorem test_decode_overload_rows :
    decodeRow .overload frameS3 = .overloadSentinel frameS3
      ∧ decodeRow .overload 0x00000000004E4C00#64 = .overloadNone 0x00000000004E4C00#64 := by decide

/-- VV16, VV19, VV20, VV21. -/
theorem test_decode_divisor_rows :
    decodeRow .divisor 0x07#64 = .divisorDiv1000 0x07#64
      ∧ decodeRow .divisor 0x06#64 = .divisorDiv100 0x06#64
      ∧ decodeRow .divisor 0x04#64 = .divisorDiv10 0x04#64
      ∧ decodeRow .divisor 0xB8#64 = .divisorNone 0xB8#64 := by decide

/-- R125: only bit 0x40. -/
theorem test_decode_sign_rows :
    decodeRow .sign 0x40#64 = .signNeg 0x40#64
      ∧ decodeRow .sign 0xBF#64 = .signPos 0xBF#64 := by decide

/-- VV25–VV30. -/
theorem test_decode_prefix_rows :
    decodeRow .metricPrefix 0x0000F00200000000#64 = .prefixNano 0x0000F00200000000#64
      ∧ decodeRow .metricPrefix 0x0000F00000000000#64 = .prefixMega 0x0000F00000000000#64
      ∧ decodeRow .metricPrefix 0x0000E00000000000#64 = .prefixKilo 0x0000E00000000000#64
      ∧ decodeRow .metricPrefix 0x0000C00000000000#64 = .prefixMilli 0x0000C00000000000#64
      ∧ decodeRow .metricPrefix 0x0000800000000000#64 = .prefixMicro 0x0000800000000000#64
      ∧ decodeRow .metricPrefix 0x00000FFD00000000#64 = .prefixNone 0x00000FFD00000000#64 := by decide

/-- VU02–VU05, VU07. -/
theorem test_decode_base_unit_rows_first :
    decodeRow .baseUnit 0xFFFFFF0000000000#64 = .baseUnitVdiode 0xFFFFFF0000000000#64
      ∧ decodeRow .baseUnit 0xFFFF000000000000#64 = .baseUnitV 0xFFFF000000000000#64
      ∧ decodeRow .baseUnit 0xFF7F000000000000#64 = .baseUnitA 0xFF7F000000000000#64
      ∧ decodeRow .baseUnit 0x3D3F000000000000#64 = .baseUnitOhm 0x3D3F000000000000#64
      ∧ decodeRow .baseUnit 0x3C3F000000000000#64 = .baseUnitDegF 0x3C3F000000000000#64 := by decide

/-- VU10–VU14. -/
theorem test_decode_base_unit_rows_last :
    decodeRow .baseUnit 0x003E000000000000#64 = .baseUnitDegC 0x003E000000000000#64
      ∧ decodeRow .baseUnit 0x003C000000000000#64 = .baseUnitFarad 0x003C000000000000#64
      ∧ decodeRow .baseUnit 0x0038000000000000#64 = .baseUnitHz 0x0038000000000000#64
      ∧ decodeRow .baseUnit 0x0030000000000000#64 = .baseUnitHfe 0x0030000000000000#64
      ∧ decodeRow .baseUnit 0x0020000000000000#64 = .baseUnitUnknown 0x0020000000000000#64 := by decide

/-- VU16–VU18. -/
theorem test_decode_suffix_rows :
    decodeRow .suffix 0x0000000018000000#64 = .suffixAc 0x0000000018000000#64
      ∧ decodeRow .suffix 0x0000000010000000#64 = .suffixDc 0x0000000010000000#64
      ∧ decodeRow .suffix 0x00000000E7000000#64 = .suffixNone 0x00000000E7000000#64 := by decide

/-- R76: DIGITS selects nothing and always holds. -/
theorem test_decode_digits_row :
    decodeRow .digits frameS1 = .digits frameS1 := by decide

/-- VM01, and R70 for cmd 0xD. -/
theorem test_encode_words :
    encode (.decodeImm frameS1) = .command 0x00800000103412005#68
      ∧ encode (.reserved8 5 2) = .command 0x0000000000000002D#68 := by decide

/-- VM01 as bytes, S3 as a frame, and two refusals. -/
theorem test_decode_bytes :
    (decodeBytes [0x05, 0x20, 0x41, 0x03, 0x01, 0x00, 0x00, 0x08, 0x00]).toOption = some (.decodeImm frameS1)
      ∧ (decodeBytes [0x00, 0x4C, 0x4F, 0x00, 0x00, 0x00, 0x08, 0x00]).toOption = some (.overloadSentinel frameS3)
      ∧ (decodeBytes [0x05]).toOption = none
      ∧ (decodeBytes [0, 0, 0, 0, 0, 0, 0, 0, 0x10]).toOption = none := by decide

/-- Rows of the table by their match (log entry 11). -/
theorem test_table_words :
    decodeTableWord 8 0 = some (.nextFrame 0)
      ∧ decodeTableWord 8 5 = some (.decodeImm 0)
      ∧ decodeTableWord 72 0x8 = some (.reserved8 0 0)
      ∧ decodeTableWord 24 0x4F4C00 = some (.overloadSentinel 0x4F4C00)
      ∧ decodeTableWord 64 0x1 = some (.divisorDiv1000 1)
      ∧ decodeTableWord 32 0x08000000 = some (.suffixAc 0x08000000)
      ∧ decodeTableWord 24 0 = some (.digits 0)
      ∧ decodeTableWord 8 0x40 = some (.signNeg 0x40)
      ∧ decodeTableWord 8 0x100 = none := by decide

/-! ## Values and units: vectors of `95_test_vectors.md` -/

/-- VV01, VV22, VV02. -/
theorem test_value_scenarios :
    decodeValue 0x0080000010341200#64 = 0x4093480000000000#64
      ∧ decodeValue 0x0000000000500001#64 = 0x3FA999999999999A#64
      ∧ decodeValue 0xFFFFF402184F4C47#64 = 0x7FF0000000000000#64 := by decide +kernel

/-- VV11, VV12, VV13, VV23. -/
theorem test_value_zero_and_sign :
    decodeValue 0x0000000000000000#64 = 0x0000000000000000#64
      ∧ decodeValue 0x0000000000000040#64 = 0x8000000000000000#64
      ∧ decodeValue 0x0000100000000041#64 = 0x8000000000000000#64
      ∧ decodeValue 0x0000000000500041#64 = 0xBFA999999999999A#64 := by decide +kernel

/-- VV04, VV07, VV09, VV10. -/
theorem test_value_digits :
    decodeValue 0x00000000004E4C00#64 = 0x40B4860000000000#64
      ∧ decodeValue 0x0000000000004C00#64 = 0x40B4500000000000#64
      ∧ decodeValue 0x0000000000FFFF00#64 = 0x40D0464000000000#64
      ∧ decodeValue 0x0000000000999900#64 = 0x40C3878000000000#64 := by decide +kernel

/-- VV15, VV19, VV20. -/
theorem test_value_divisors :
    decodeValue 0x0000000000341203#64 = 0x3FF3BE76C8B43958#64
      ∧ decodeValue 0x0000000000341206#64 = 0x4028AE147AE147AE#64
      ∧ decodeValue 0x0000000000341204#64 = 0x405ED9999999999A#64 := by decide +kernel

/-- VV24, VV25, VV26, VV27, VV28, VV29. -/
theorem test_value_prefixes :
    decodeValue 0x0000400000341242#64 = 0xBF8945B6C3760BF6#64
      ∧ decodeValue 0x0000F00200341200#64 = 0x3EB4B3FD5942CD97#64
      ∧ decodeValue 0x0000F00000341200#64 = 0x41D2635620000000#64
      ∧ decodeValue 0x0000E00000341200#64 = 0x4132D45000000000#64
      ∧ decodeValue 0x0000C00000341200#64 = 0x3FF3BE76C8B43958#64
      ∧ decodeValue 0x0000800000341200#64 = 0x3F5437C5692B3CC4#64 := by decide +kernel

/-- VV32, VV31, VV34, VV38. -/
theorem test_value_two_roundings :
    decodeValue 0x0000000200010001#64 = 0x3D719799812DEA12#64
      ∧ decodeValue 0x0000100000FFFF00#64 = 0x420F0A7DC2000000#64
      ∧ decodeValue 0x0000800000999941#64 = 0xBEE4F82C188427BA#64
      ∧ decodeValue 0x0000800000030004#64 = 0x3E9421F5F40D8376#64 := by decide +kernel

/-- VC12. -/
theorem test_value_all_ones :
    decodeValue 0xFFFFFFFFFFFFFFFF#64 = 0xBE51E4D71F2917A9#64 := by decide +kernel

/-- S1–S3. -/
theorem test_unit_scenarios :
    decodeUnit frameS1 = ['V', 'D', 'C'] ∧ decodeUnit frameS2 = ['A', 'A', 'C'] ∧ decodeUnit frameS3 = ['H', 'z'] := by decide

/-- VM07, VU21. -/
theorem test_unit_ohm_dc :
    decodeUnit 0x3D00200010769804#64 = ['\u03A9', 'D', 'C'] ∧ unitBytes ['\u03A9', 'A', 'C'] = 0x00000000004341A9CE#72 := by decide

/-- VU19. -/
theorem test_unit_longest :
    (decoderPorts 0x0000000008000000#64).unitLen = 9 ∧ (decoderPorts 0x0000000008000000#64).unitBytes = 0x43416E776F6E6B6E75#72 := by decide +kernel

/-- The three- and four-byte forms of UTF-8 (K3). -/
theorem test_utf8_wider :
    utf8 ['\u20AC'] = [0xE2, 0x82, 0xAC] ∧ utf8 [Char.ofNat 0x1F600] = [0xF0, 0x9F, 0x98, 0x80] := by decide

/-- VV02. -/
theorem test_ports_on_sentinel :
    (decoderPorts 0xFFFFF402184F4C47#64).overload = 1 ∧ (decoderPorts 0xFFFFF402184F4C47#64).divSel = 3 ∧
      (decoderPorts 0xFFFFF402184F4C47#64).neg = 1 ∧ (decoderPorts 0xFFFFF402184F4C47#64).prefixSel = 1 := by decide +kernel

/-- IEEE 754 (K1): 3 × 2^-1074 / 2 ties to even, overflow, 1/−0, ∞ × −1. -/
theorem test_binary64_edges :
    fdiv 0x0000000000000003#64 0x4000000000000000#64 = 2#64 ∧ fmul 0x7FEFFFFFFFFFFFFF#64 0x4000000000000000#64 = posInf ∧
      fdiv 0x3FF0000000000000#64 0x8000000000000000#64 = 0xFFF0000000000000#64 ∧ fmul posInf 0xBFF0000000000000#64 = 0xFFF0000000000000#64 := by decide +kernel

/-- R24. -/
theorem test_status_codes :
    [RdStatus.none, .busy, .ok, .shortRead, .ioError].map statusCode = [0, 1, 2, 3, 4] := by decide

/-! ## Single steps: vectors VR and VC of `95_test_vectors.md` -/

/-- VC13. -/
theorem test_next_frame_starts :
    nextWhere (step { State.reset with schedule := [.command 1 0xABCDEF01234567890#68] })
      (fun u => u.rdStatus = .busy ∧ u.rdOwner = some 1 ∧ u.rdFrame = none ∧ u.waiting = [1] ∧ u.log = []) = true := by decide +kernel

/-- VC06. -/
theorem test_next_frame_while_busy :
    nextWhere (step { busyWith [0x11] with schedule := [.command 2 0#68] })
      (fun u => u.faults = [.concurrentRead 2] ∧ u.halted = [2] ∧ u.rdStatus = .busy ∧ u.rdBuf = [0x11] ∧ u.waiting = [1] ∧ u.log = []) = true := by decide +kernel

/-- VR01 and VR07, the last event. -/
theorem test_reader_eighth_byte :
    nextWhere (step { busyWith seven with schedule := [.reader], stream := [.byte 0x00, .fail] })
      (fun u => u.rdStatus = .ok ∧ u.rdFrame = some frameS1 ∧ u.log = [(1, .frame frameS1)] ∧ u.stream = [.fail] ∧ u.rdBuf = [] ∧
        u.rdCount = 0 ∧ u.waiting = [] ∧ u.rdOwner = some 1) = true := by decide +kernel

/-- VR04, the last event. -/
theorem test_reader_short_read :
    nextWhere (step { busyWith [1, 2, 3, 4, 5] with schedule := [.reader], stream := [.endOfData] })
      (fun u => u.rdStatus = .shortRead ∧ u.rdFrame = none ∧ u.log = [(1, .shortReadError)] ∧ u.rdBuf = [] ∧ u.rdCount = 0) = true := by decide +kernel

/-- VR05, the last event. -/
theorem test_reader_io_error :
    nextWhere (step { busyWith seven with schedule := [.reader], stream := [.fail] })
      (fun u => u.rdStatus = .ioError ∧ u.rdFrame = none ∧ u.log = [(1, .ioError)] ∧ u.waiting = []) = true := by decide +kernel

/-- VR09. -/
theorem test_reader_waits :
    nextWhere (step { busyWith [0x11, 0x22, 0x33] with schedule := [.reader] })
      (fun u => u.rdStatus = .busy ∧ u.rdCount = 3 ∧ u.log = [] ∧ u.waiting = [1]) = true := by decide +kernel

/-- R102: the stream is read only while BUSY. -/
theorem test_reader_idle :
    nextWhere (step { State.reset with schedule := [.reader], stream := [.byte 1] })
      (fun u => u.stream = [.byte 1] ∧ u.rdStatus = .none) = true := by decide +kernel

/-- VC01. -/
theorem test_decode_rd_after_reset :
    nextWhere (step { State.reset with schedule := [.command 1 1#68] })
      (fun u => u.faults = [.noFrame 1] ∧ u.log = [] ∧ u.rdStatus = .none ∧ u.halted = [1]) = true := by decide +kernel

/-- VC02. -/
theorem test_decode_value_rd_after_reset :
    nextWhere (step { State.reset with schedule := [.command 1 2#68] })
      (fun u => u.faults = [.noFrame 1] ∧ u.log = []) = true := by decide +kernel

/-- VC03. -/
theorem test_decode_unit_rd_after_reset :
    nextWhere (step { State.reset with schedule := [.command 1 3#68] })
      (fun u => u.faults = [.noFrame 1] ∧ u.log = []) = true := by decide +kernel

/-- VC05. -/
theorem test_decode_rd_of_frame :
    nextWhere (step { holding frameS1 with schedule := [.command 1 1#68] })
      (fun u => u.log = [(1, .measurement 0x4093480000000000#64 ['V', 'D', 'C'])] ∧ u.rdFrame = some frameS1 ∧ u.faults = []) = true := by decide +kernel

/-- P1, step 6. -/
theorem test_decode_value_rd_of_frame :
    nextWhere (step { holding frameS2 with schedule := [.command 1 2#68] })
      (fun u => u.log = [(1, .value 0x3FA999999999999A#64)]) = true := by decide +kernel

/-- P1, step 7. -/
theorem test_decode_unit_rd_of_frame :
    nextWhere (step { holding frameS2 with schedule := [.command 1 3#68] })
      (fun u => u.log = [(1, .unit ['A', 'A', 'C'])]) = true := by decide +kernel

/-- VC07. -/
theorem test_decode_imm_while_busy :
    nextWhere (step { busyWith [0x01] with schedule := [.command 2 0x00800000103412005#68] })
      (fun u => u.log = [(2, .measurement 0x4093480000000000#64 ['V', 'D', 'C'])] ∧ u.rdStatus = .busy ∧ u.rdBuf = [0x01]) = true := by decide +kernel

/-- P2, step 3. -/
theorem test_decode_value_imm :
    nextWhere (step { State.reset with schedule := [.command 1 0x00008000009999416#68] })
      (fun u => u.log = [(1, .value 0xBEE4F82C188427BA#64)]) = true := by decide +kernel

/-- S3. -/
theorem test_decode_unit_imm :
    nextWhere (step { State.reset with schedule := [.command 1 0x00080000004F4C007#68] })
      (fun u => u.log = [(1, .unit ['H', 'z'])]) = true := by decide +kernel

/-- P5, step 2. -/
theorem test_reserved4 :
    nextWhere (step { State.reset with schedule := [.command 1 0x00080000004F4C004#68] })
      (fun u => u.refused = true ∧ u.log = [] ∧ u.halted = [1] ∧ u.rdStatus = .none) = true := by decide +kernel

/-- VC11. -/
theorem test_reserved8 :
    nextWhere (step { State.reset with schedule := [.command 1 0xD#68] })
      (fun u => u.refused = true ∧ u.log = [] ∧ u.faults = []) = true := by decide +kernel

/-- R204: a faulted host has no further step. -/
theorem test_stopped_host_issues_nothing :
    nextWhere (step { State.reset with halted := [2], schedule := [.command 2 5#68] })
      (fun u => u.log = [] ∧ u.schedule = []) = true := by decide +kernel

/-- R230, R232. -/
theorem test_reset_during_call :
    nextWhere (step { busyWith seven with schedule := [.reset], log := [(2, .ioError)], stream := [.byte 9] })
      (fun u => u.rdStatus = .none ∧ u.rdBuf = [] ∧ u.log = [] ∧ u.waiting = [1] ∧ u.stream = [.byte 9]) = true := by decide +kernel

/-- VV15: 0x01 beats 0x02. -/
theorem test_probe_divisor_row :
    nextWhere (step { State.reset with schedule := [.probe 0x03#64 .divisor] })
      (fun u => (u.portView.map fun v => (v.divSel, v.baseUnit, v.overload)) = some (3, 9, 0)) = true := by decide +kernel

/-- S3. -/
theorem test_probe_sentinel_row :
    nextWhere (step { State.reset with schedule := [.probe frameS3 .overload] })
      (fun u => (u.portView.map fun v => (v.overload, v.value, v.unitLen)) = some (1, posInf, 2)) = true := by decide +kernel

/-- R13: a later row decides nothing where an earlier one holds. -/
theorem test_row_not_selected :
    nextWhere (exec (.divisorDiv100 0x03#64) State.reset)
      (fun u => (u.portView.map fun v => v.divSel) = some 3) = true := by decide +kernel

/-- Log entries 3 and 11. -/
theorem test_fetch_word_runs_first :
    nextWhere (step (State.reset.withFetchWord 8 5)) (fun u => u.log.length = 1) = true ∧
      nextWhere (step ((busyWith []).withFetchWord 8 4)) (fun u => u.refused = true ∧ u.halted = [2]) = true := by decide +kernel

/-! ## The assembler: lines of programs P1 to P5 -/

/-- P1. -/
theorem test_assemble_next_frame :
    assembleLine "h1: NEXT_FRAME   ; C = 0".toList = some [.command 1 0#68] := by decide +kernel

/-- P3. -/
theorem test_assemble_decode_literal :
    assembleLine "h2: DECODE [0x04, 0x98, 0x76, 0x10, 0x00, 0x20, 0x00, 0x3D]".toList =
      some [.command 2 0x3D002000107698045#68] := by decide +kernel

/-- P1 and R73: a literal has eight bytes. -/
theorem test_assemble_decode_value_rd :
    assembleLine "DECODE_VALUE RD".toList = some [.command 1 2#68] ∧
      assembleLine "DECODE_UNIT [1, 2, 3, 4, 5, 6, 7]".toList = none := by decide +kernel

/-- R74. -/
theorem test_assemble_read_decode :
    assembleLine "READ_DECODE".toList = some [.command 1 0#68, .command 1 1#68] ∧ assembleLine " ; only a comment".toList = some [] := by decide +kernel

/-! ## Witnesses: concrete values that meet the hypotheses of each statement -/

theorem witness_ResetLeavesStatedValues :
    ({ busyWith seven with schedule := [.reset] } : State).schedule = .reset :: [] := by decide

theorem witness_ResetDuringCallGivesNoResponse :
    ∀ n ∈ [0, 3], ∃ s : State, s.rdStatus = .busy ∧ s.rdOwner = some 1 ∧ 1 ∈ s.waiting ∧ s.stream = [.byte 3] ∧
      s.schedule = .reset :: (List.replicate n .reader ++ []) := fun n _ =>
  ⟨{ busyWith seven with stream := [.byte 3], schedule := .reset :: (List.replicate n .reader ++ []) },
    rfl, rfl, List.mem_cons_self, rfl, rfl⟩

theorem witness_StepRunsDecodedCommand :
    ∃ s : State, s.schedule = .command 2 0x5#68 :: [] ∧ 2 ∉ s.waiting ∧ 2 ∉ s.halted := ⟨{ busyWith [] with schedule := [.command 2 5] }, by decide⟩

theorem witness_StepRunsProbedRow :
    ({ State.reset with schedule := [.probe frameS1 .suffix] } : State).schedule = .probe frameS1 .suffix :: [] := by decide

theorem witness_BlockedOrStoppedHostIssuesNothing :
    (∃ s : State, s.schedule = .command 1 0#68 :: [] ∧ 1 ∈ s.waiting) ∧ ∃ s : State, s.schedule = .command 2 0#68 :: [] ∧ 2 ∈ s.halted := ⟨⟨{ busyWith [] with schedule := [.command 1 0] }, by decide⟩,
    ⟨{ State.reset with halted := [2], schedule := [.command 2 0] }, by decide⟩⟩

theorem witness_ReaderWaitsForEvents :
    (∃ s : State, s.stream = [] ∧ s.rdStatus = .busy ∧ s.schedule = List.replicate 2 .reader) ∧
      ∃ s : State, s.stream = [.byte 1] ∧ s.rdStatus ≠ .busy ∧ s.schedule = List.replicate 2 .reader := ⟨⟨{ busyWith seven with schedule := [.reader, .reader] }, by decide⟩,
    ⟨{ State.reset with stream := [.byte 1], schedule := [.reader, .reader] }, by decide⟩⟩

theorem witness_AssembledWordIsShiftedFrame :
    (seven ++ [0x00]).length = 8 := by decide

theorem witness_DecodeEncodeRoundTrip :
    WellFormed (.reserved8 7 0xFFFFFFFFFFFFFFFF#64) = true ∧ WellFormed (.baseUnitOhm 0xFF3F000000000000#64) = true := by decide

theorem witness_ReadDecodeExpandsToTwoCommands :
    (∃ s : State, FrameHeldWhenOk s ∧ s.rdStatus = .shortRead) ∧ ∃ s : State, FrameHeldWhenOk s ∧ s.rdStatus = .ioError := ⟨⟨{ State.reset with rdStatus := .shortRead }, by decide⟩, ⟨{ State.reset with rdStatus := .ioError }, by decide⟩⟩

theorem witness_NextFrameStartsCall :
    State.reset.rdStatus ≠ .busy ∧ (holding frameS1).rdStatus ≠ .busy := by decide

theorem witness_ConcurrentReadFaults :
    (busyWith seven).rdStatus = .busy := by decide

theorem witness_ByteStepStoresOrDelivers :
    ∀ bs ∈ [[], seven.take 6, seven], ∃ s : State, s.schedule = .reader :: [] ∧ s.rdStatus = .busy ∧
      s.stream = .byte 5 :: [.fail] ∧ s.rdBuf.length = s.rdCount ∧ s.rdOwner = some 1 ∧ s.rdBuf = bs := fun bs _ =>
  ⟨{ busyWith bs with schedule := [.reader], stream := [.byte 5, .fail] }, rfl, rfl, rfl, rfl, rfl, rfl⟩

theorem witness_EndAndFailEndTheCall :
    ∀ bs ∈ [[], seven], ∀ e ∈ [StreamEvent.endOfData, .fail], ∃ s : State, s.schedule = .reader :: [] ∧ s.rdStatus = .busy ∧
      s.rdOwner = some 1 ∧ s.stream = e :: [] ∧ s.rdBuf = bs := fun bs _ e _ =>
  ⟨{ busyWith bs with schedule := [.reader], stream := [e] }, rfl, rfl, rfl, rfl, rfl⟩

theorem witness_NextFrameDeliversEightBytes :
    ∃ s : State, s.rdStatus ≠ .busy ∧ canMove 1 s = true ∧ commandCode 0#68 = 0 ∧ (seven ++ [9]).length = 8 ∧
      s.stream = (seven ++ [9]).map .byte ++ [.fail] ∧ s.schedule = .command 1 0#68 :: (List.replicate 8 .reader ++ []) := ⟨{ State.reset with
      stream := (seven ++ [9]).map .byte ++ [.fail], schedule := .command 1 0 :: List.replicate 8 .reader }, by decide⟩

theorem witness_NextFrameFailsOnShortStream :
    ∀ p ∈ [([], StreamEvent.endOfData), (seven, .fail)], ∃ s : State, s.rdStatus ≠ .busy ∧ canMove 1 s = true ∧
      commandCode 0#68 = 0 ∧ p.1.length < 8 ∧ (p.2 = .endOfData ∨ p.2 = .fail) ∧ s.stream = p.1.map .byte ++ p.2 :: [] ∧
      s.schedule = .command 1 0#68 :: (List.replicate (p.1.length + 1) .reader ++ []) := by
  intro p hp
  refine ⟨{ State.reset with
    stream := p.1.map .byte ++ [p.2]
    schedule := .command 1 0 :: (List.replicate (p.1.length + 1) .reader ++ []) }, ?_⟩
  revert p
  decide

theorem witness_OnlyTheReaderConsumesEvents :
    ∃ t, step { busyWith [] with schedule := [.reader], stream := [.byte 1] } = .next t := ⟨_, rfl⟩

theorem witness_DecodeRespondsMeasurement :
    (holding frameS1).rdFrame = some frameS1 := by decide

theorem witness_DecodeValueRespondsValue :
    (holding frameS2).rdFrame = some frameS2 := by decide

theorem witness_DecodeUnitRespondsUnit :
    (holding frameS3).rdFrame = some frameS3 := by decide

theorem witness_RdFormWithoutFrameFaults :
    State.reset.rdFrame = none ∧ FrameHeldWhenOk (busyWith seven) ∧ (busyWith seven).rdStatus ≠ .ok := by decide

theorem witness_ReservedCommandIsRefused :
    commandCode 0x00080000004F4C004#68 = 0x4#4 ∧ 0x8#4 ≤ commandCode 0x8#68 ∧ 0x8#4 ≤ commandCode 0xF#68 ∧
      ¬0x8#4 ≤ commandCode 0x7#68 := by decide

theorem witness_OneMeasurementPerFrame :
    (holding frameS2).rdFrame = some frameS2 := by decide

theorem witness_SentinelGivesPlusInfinity :
    frameByte frameS3 1 = 0x4C#8 ∧ frameByte frameS3 2 = 0x4F#8 ∧
      frameByte 0x0#64 0 = frameByte frameS3 0 ∧ frameByte 0x0#64 4 = frameByte frameS3 4 ∧
      frameByte 0x0#64 5 = frameByte frameS3 5 := by decide

theorem witness_BaseUnitStringsAsListed :
    suffixCode (suffixSel frameS3) = 0#2 ∧ suffixCode (suffixSel 0xFFFFFFFFE7FFFFFF#64) = 0#2 := by decide

theorem witness_TableRowsAgreeWithChains :
    encode (.divisorDiv100 0x02#64) = .frame .divisor 0x02#64 ∧ encode (.divisorDiv100 0x03#64) = .frame .divisor 0x03#64 ∧
      encode (.digits frameS1) = .frame .digits frameS1 := by decide

theorem witness_MagnitudeStaysInRange :
    BcdValid 0x0000000000999900#64 ∧ magnitude 0x0000000000999900#64 = 9999 ∧ magnitude 0x0000000000FFFF00#64 = 16665 := by decide

theorem witness_IntegerConversionIsExact :
    (0 : Int).natAbs ≤ 16665 ∧ (16665 : Int).natAbs ≤ 16665 ∧ (-16665 : Int).natAbs ≤ 16665 := by decide

theorem witness_RoundingIsToNearestTiesToEven :
    0 < 3 ∧ IsFinite (roundNearest false 1 3) ∧ IsFinite 0x3FD5555555555556#64 ∧ signBit 0x3FD5555555555556#64 = false := by decide +kernel

/-- 2^53 + 1 lies midway between 2^53 and 2^53 + 2 (IEEE 754, K1). -/
theorem witness_RoundingIsToNearestTiesToEven_tie :
    IsFinite (roundNearest false (2 ^ 53 + 1) 1) ∧ IsFinite 0x4340000000000001#64 ∧
      signBit 0x4340000000000001#64 = false ∧ 0x4340000000000001#64 ≠ roundNearest false (2 ^ 53 + 1) 1 ∧
      (((2 ^ 53 + 1 : Nat) * 2 ^ 1075 : Int) - (scaledMagnitude (roundNearest false (2 ^ 53 + 1) 1) * 1 : Nat)).natAbs =
        (((2 ^ 53 + 1 : Nat) * 2 ^ 1075 : Int) - (scaledMagnitude 0x4340000000000001#64 * 1 : Nat)).natAbs := by
  decide +kernel

theorem witness_ValueIsZeroOrNormalInRange :
    overload 0x0#64 = false ∧ overload 0x0000100000FFFF00#64 = false ∧ overload 0x0000000200010001#64 = false := by decide

theorem witness_ZeroMagnitudeKeepsItsSign :
    magnitude 0x0000100000000041#64 = 0 ∧ neg 0x0000100000000041#64 = true ∧ magnitude 0x0#64 = 0 ∧ neg 0x0#64 = false := by decide

theorem witness_SignBitNegatesTheValue :
    overload frameS2 = false := by decide

theorem witness_PlainFrameHasItsMagnitude :
    overload frameS1 = false ∧ frameByte frameS1 0 &&& 0x47#8 = 0#8 ∧ prefixSel frameS1 = .none := by decide

theorem witness_DivisorBitDivides :
    overload frameS1 = false ∧ frameByte frameS1 0 &&& 0x07#8 = 0#8 ∧ prefixSel frameS1 = .none ∧
      (0x04#64, 0x4024000000000000#64) ∈
        [(0x01#64, 0x408F400000000000#64), (0x02#64, 0x4059000000000000#64), (0x04#64, 0x4024000000000000#64)] :=
  ⟨rfl, rfl, rfl, by simp⟩

theorem witness_ValueReadsOnlyItsBits :
    0xFFFF0FFDFF0000B8#64 ≠ 0x0#64 ∧ 0xFFFF0FFDFF0000B8#64 &&& 0x0000F00200FFFF47#64 = 0x0#64 &&& 0x0000F00200FFFF47#64 := by decide

theorem witness_UnitReadsOnlyItsBits :
    0xC220FBFFE7FFFFFF#64 ≠ 0x0#64 ∧ 0xC220FBFFE7FFFFFF#64 &&& 0x3DDF040018000000#64 = 0x0#64 &&& 0x3DDF040018000000#64 := by decide

theorem witness_UnreadBitsChangeNoPort :
    0xC2200BFDE70000B8#64 ≠ 0x0#64 ∧ 0xC2200BFDE70000B8#64 ||| 0xC2200BFDE70000B8#64 = 0x0#64 ||| 0xC2200BFDE70000B8#64 := by decide

theorem witness_OverloadRowsDrivePort :
    (frameByte frameS3 1 = 0x4C#8 ∧ frameByte frameS3 2 = 0x4F#8) ∧ ¬(frameByte frameS1 1 = 0x4C#8 ∧ frameByte frameS1 2 = 0x4F#8) := by decide

theorem witness_DivisorRowsDrivePort :
    WellFormed (.divisorDiv1000 7#64) = true
      ∧ WellFormed (.divisorDiv100 6#64) = true
      ∧ WellFormed (.divisorDiv10 4#64) = true
      ∧ WellFormed (.divisorNone 0xF8#64) = true := by decide

theorem witness_SignRowsDrivePort :
    frameByte 0x40#64 0 &&& 0x40#8 ≠ 0#8 ∧ frameByte 0xBF#64 0 &&& 0x40#8 = 0#8 := by decide

theorem witness_PrefixRowsDrivePort :
    WellFormed (.prefixNano 0x0000F00200000000#64) = true
      ∧ WellFormed (.prefixMega 0x0000F00000000000#64) = true
      ∧ WellFormed (.prefixKilo 0x0000E00000000000#64) = true
      ∧ WellFormed (.prefixMilli 0x0000C00000000000#64) = true
      ∧ WellFormed (.prefixMicro 0x0000800000000000#64) = true
      ∧ WellFormed (.prefixNone 0x00000FFD00000000#64) = true := by decide

theorem witness_BaseUnitRowsDrivePorts :
    WellFormed (.baseUnitVdiode 0xFFFFFF0000000000#64) = true
      ∧ WellFormed (.baseUnitV 0xFFFF000000000000#64) = true
      ∧ WellFormed (.baseUnitA 0xFF7F000000000000#64) = true
      ∧ WellFormed (.baseUnitOhm 0x3D3F000000000000#64) = true
      ∧ WellFormed (.baseUnitDegF 0x3C3F000000000000#64) = true
      ∧ WellFormed (.baseUnitDegC 0x003E000000000000#64) = true
      ∧ WellFormed (.baseUnitFarad 0x003C000000000000#64) = true
      ∧ WellFormed (.baseUnitHz 0x0038000000000000#64) = true
      ∧ WellFormed (.baseUnitHfe 0x0030000000000000#64) = true
      ∧ WellFormed (.baseUnitUnknown 0x0020000000000000#64) = true := by decide

theorem witness_SuffixRowsDrivePorts :
    WellFormed (.suffixAc 0x0000000018000000#64) = true
      ∧ WellFormed (.suffixDc 0x0000000010000000#64) = true
      ∧ WellFormed (.suffixNone 0x00000000E7000000#64) = true := by decide

theorem witness_OnlyNextFrameTouchesTheReader :
    ((∃ t, exec (.decodeImm frameS1) State.reset = .next t) ∧ ∀ w, Instr.decodeImm frameS1 ≠ .nextFrame w) ∧
      (∃ t, step { State.reset with schedule := [.command 1 0] } = .next t ∧ statusCode t.rdStatus = 1) ∧
      (∃ t, step { holding frameS1 with schedule := [.reset] } = .next t ∧ statusCode t.rdStatus = 0) ∧
      (∃ t, step { busyWith seven with schedule := [.reader], stream := [.byte 0] } = .next t ∧
        statusCode t.rdStatus = 2) ∧
      (∃ t, step { busyWith [] with schedule := [.reader], stream := [.endOfData] } = .next t ∧
        statusCode t.rdStatus = 3) ∧
      ∃ t, step { busyWith seven with schedule := [.reader], stream := [.fail] } = .next t ∧
        statusCode t.rdStatus = 4 :=
  ⟨⟨⟨_, rfl⟩, fun _ h => nomatch h⟩, ⟨_, rfl, rfl⟩, ⟨_, rfl, rfl⟩, ⟨_, rfl, rfl⟩, ⟨_, rfl, rfl⟩, ⟨_, rfl, rfl⟩⟩

theorem witness_MarksAndResponsesAreNeverCleared :
    (∃ t, step { holding frameS1 with refused := true, schedule := [.command 1 1] } = .next t) ∧
      ∀ rest, ({ holding frameS1 with schedule := [.command 1 1] } : State).schedule ≠ .reset :: rest := ⟨⟨_, rfl⟩, fun _ h => nomatch h⟩

theorem inv_busy_with_seven :
    MachineInv ({ busyWith seven with schedule := [.reader], stream := [.byte 0] }) := by
  refine ⟨by decide, by decide, ?_, by decide, by decide, ?_⟩
  · intro _; exact ⟨1, by decide, rfl⟩
  · intro v hv; cases hv

theorem inv_busy_with_none :
    MachineInv ({ busyWith [] with schedule := [.reader], stream := [.fail] }) := by
  refine ⟨by decide, by decide, ?_, by decide, by decide, ?_⟩
  · intro _; exact ⟨1, by decide, rfl⟩
  · intro v hv; cases hv

theorem inv_stopped_host :
    MachineInv ({ busyWith [] with halted := [2], faults := [.noFrame 2], refused := true, schedule := [.reader], stream := [.fail] }) := by
  refine ⟨by decide, by decide, ?_, by decide, by decide, ?_⟩
  · intro _; exact ⟨1, by decide, rfl⟩
  · intro v hv; cases hv

theorem inv_probed :
    MachineInv ({ holding frameS1 with portView := some (decoderPorts frameS1), schedule := [.command 1 1] }) := by
  refine ⟨by decide, by decide, ?_, by decide, by decide, ?_⟩
  · intro busy; cases busy
  · intro v hv; cases hv; simp [decoderPorts]

theorem witness_StoppedHostsGetNoResponse :
    ∃ s : State, MachineInv s ∧ (∃ t, step s = .next t) ∧ (∀ rest, s.schedule ≠ .reset :: rest) ∧ 2 ∈ s.halted := ⟨_, inv_stopped_host, ⟨_, rfl⟩, fun _ h => (nomatch h), by decide⟩

theorem witness_HostsStayWithinTheirNumber :
    ∃ s : State, HostsWithin 1 s ∧ ∃ t, step s = .next t := by
  refine ⟨{ busyWith seven with schedule := [.command 1 0, .reader], stream := [.byte 0] }, ?_, ⟨_, rfl⟩⟩
  exact ⟨by decide, by decide, by decide, by decide, by decide, by decide, by decide⟩

theorem witness_EveryStepKeepsTheInvariant :
    ∃ s : State, MachineInv s ∧ s.rdCount = 7 ∧ ∃ t, step s = .next t := ⟨_, inv_busy_with_seven, rfl, ⟨_, rfl⟩⟩

theorem witness_StepNeverStopsTheMachine :
    ∃ s : State, MachineInv s ∧ s.stream = [.fail] := ⟨_, inv_busy_with_none, rfl⟩

theorem witness_DecodesOfTwoHostsCommute :
    (commandCode 5#68 ∈ [5#4, 6#4, 7#4] ∧ commandCode 7#68 ∈ [5#4, 6#4, 7#4] ∧ canMove 2 (busyWith seven) = true ∧
        canMove 3 (busyWith seven) = true) ∧
      commandCode 1#68 ∈ [1#4, 2#4, 3#4] ∧ commandCode 3#68 ∈ [1#4, 2#4, 3#4] ∧ (holding frameS1).rdFrame ≠ none ∧
        canMove 1 (holding frameS1) = true ∧ canMove 2 (holding frameS1) = true := by decide

end Sys2Proof.Tests
end

section
/-! Decode and encode agree (R64, R71, R72, R75): a command word keeps its code and operand, and a FRAME64 row is well
formed, by the rules' bytes, exactly where the table's masks select it. -/

namespace Sys2Proof.Proofs

open Sys2Proof.Machine Sys2Proof.Laws

/-! ## Command words -/

theorem commandCode_commandWord (cmd : BitVec 4) (w : FrameWord) : commandCode (commandWord cmd w) = cmd := by
  apply BitVec.eq_of_getLsbD_eq
  intro j hj
  simp [commandCode, commandWord, hj, show j < 68 by omega]

theorem commandOperand_commandWord (cmd : BitVec 4) (w : FrameWord) : commandOperand (commandWord cmd w) = w := by
  apply BitVec.eq_of_getLsbD_eq
  intro j hj
  simp [commandOperand, commandWord, hj, show 4 + j < 68 by omega]

theorem decodeCommand_commandWord (cmd : BitVec 4) (w : FrameWord) :
    decodeCommand (commandWord cmd w) = instrOfCommand cmd w := by
  rw [decodeCommand, commandCode_commandWord, commandOperand_commandWord]

theorem instrOfCommand_of_ge (cmd : BitVec 4) (w : FrameWord) (ge : 0x8#4 ≤ cmd) :
    instrOfCommand cmd w = .reserved8 (cmd.extractLsb' 0 3) w := by
  have ne : ∀ c : BitVec 4, c < 0x8#4 → cmd ≠ c := fun c lt e => BitVec.not_lt.2 ge (e ▸ lt)
  simp [instrOfCommand, ne]

theorem instrOfCommand_reserved8 (low : BitVec 3) (w : FrameWord) :
    instrOfCommand (1#1 ++ low) w = .reserved8 low w := by
  have top : ∀ l : BitVec 3, 0x8#4 ≤ 1#1 ++ l ∧ (1#1 ++ l).extractLsb' 0 3 = l := by decide
  rw [instrOfCommand_of_ge _ _ (top low).1, (top low).2]

/-! ## The first row whose condition holds (R13, R75) -/

theorem le_firstMatch (w : FrameWord) (rows : List Row) (start : Nat) : start ≤ firstMatch w rows start := by
  induction rows generalizing start with
  | nil => exact le_rfl
  | cons r rs ih =>
    rw [firstMatch]
    split
    · exact le_rfl
    · exact (Nat.le_succ start).trans (ih (start + 1))

theorem firstMatch_lt (w : FrameWord) (rows : List Row) (start : Nat) (last : elseRow ∈ rows) :
    firstMatch w rows start < start + rows.length := by
  induction rows generalizing start with
  | nil => cases last
  | cons r rs ih =>
    rw [firstMatch, List.length_cons]
    split
    case isTrue => omega
    case isFalse fails =>
      have later : elseRow ∈ rs := (List.mem_cons.1 last).resolve_left (by rintro rfl; simp at fails)
      have := ih (start + 1) later
      omega

theorem firstMatch_eq_iff_onlyFirst (w : FrameWord) (rows : List Row) (start k : Nat) (hk : k < rows.length) :
    firstMatch w rows start = start + k ↔ onlyFirst (rows.map (rowHolds · w)) k = true := by
  induction rows generalizing start k with
  | nil => cases hk
  | cons r rs ih =>
    have past := le_firstMatch w rs (start + 1)
    cases holds : rowHolds r w <;> cases k
    case false.zero =>
      have ne : firstMatch w rs (start + 1) ≠ start := by omega
      simpa [firstMatch, holds, onlyFirst] using ne
    case true.zero => simp [firstMatch, holds, onlyFirst, noneOf]
    case true.succ k => simp [firstMatch, holds, onlyFirst, noneOf]
    case false.succ k =>
      have later := ih (start + 1) k (Nat.lt_of_succ_lt_succ hk)
      rw [Nat.add_right_comm, Nat.add_assoc] at later
      simpa [firstMatch, holds, onlyFirst, noneOf] using later

/-! ## The rows of a group, by the rules' bytes -/

/-- The conditions of a group's rows but its last, in order, as the rules write them over the frame's bytes
(R121, R123, R125, R126, R150, R152). -/
def ruleConditions (w : FrameWord) : RowGroup → List Bool
  | .overload => [sentinelBytes w]
  | .divisor => [byteHas w 0 0x01#8, byteHas w 0 0x02#8, byteHas w 0 0x04#8]
  | .sign => [byteHas w 0 0x40#8]
  | .metricPrefix => prefixConditions w
  | .baseUnit => baseUnitConditions w
  | .suffix => [byteHas w 3 0x08#8, byteHas w 3 0x10#8]
  | .digits => []

theorem rowHolds_eq_byteHas {r : Row} {w : FrameWord} {i : Nat} {m : Byte}
    (h : rowHolds r w = true ↔ bitSet w i m) : rowHolds r w = byteHas w i m :=
  Bool.eq_iff_iff.2 (h.trans (byteHas_iff_bitSet w i m).symm)

theorem rowHolds_sentinel_eq (w : FrameWord) :
    rowHolds ⟨0x0000000000FFFF00#64, 0x00000000004F4C00#64⟩ w = sentinelBytes w :=
  Bool.eq_iff_iff.2 ((rowHolds_sentinel w).trans (by simp [sentinelBytes]))

theorem rowHolds_ohm_eq (w : FrameWord) : rowHolds (bitsRow 0x3D00000000000000#64) w = ohmBits w :=
  Bool.eq_iff_iff.2 ((rowHolds_ohm w).trans (by simp [ohmBits]))

/-- The table's masks and the rules' bytes give the rows of a group the same conditions, the last one always true. -/
theorem rowHolds_rowsOf (g : RowGroup) (w : FrameWord) :
    (rowsOf g).map (rowHolds · w) = ruleConditions w g ++ [true] := by
  cases g <;>
    simp only [rowsOf, ruleConditions, List.map_cons, List.map_nil, List.cons_append, List.nil_append,
      rowHolds_elseRow]
  case overload => rw [rowHolds_sentinel_eq]
  case divisor =>
    rw [rowHolds_eq_byteHas (rowHolds_div1000 w), rowHolds_eq_byteHas (rowHolds_div100 w),
      rowHolds_eq_byteHas (rowHolds_div10 w)]
  case sign => rw [rowHolds_eq_byteHas (rowHolds_neg w)]
  case metricPrefix =>
    rw [rowHolds_eq_byteHas (rowHolds_nano w), rowHolds_eq_byteHas (rowHolds_mega w),
      rowHolds_eq_byteHas (rowHolds_kilo w), rowHolds_eq_byteHas (rowHolds_milli w),
      rowHolds_eq_byteHas (rowHolds_micro w), prefixConditions]
    rfl
  case baseUnit =>
    rw [rowHolds_eq_byteHas (rowHolds_vdiode w), rowHolds_eq_byteHas (rowHolds_volt w),
      rowHolds_eq_byteHas (rowHolds_ampere w), rowHolds_ohm_eq, rowHolds_eq_byteHas (rowHolds_degF w),
      rowHolds_eq_byteHas (rowHolds_degC w), rowHolds_eq_byteHas (rowHolds_farad w),
      rowHolds_eq_byteHas (rowHolds_hertz w), rowHolds_eq_byteHas (rowHolds_hfe w), baseUnitConditions]
    rfl
  case suffix => rw [rowHolds_eq_byteHas (rowHolds_ac w), rowHolds_eq_byteHas (rowHolds_dc w)]

theorem elseRow_mem_rowsOf (g : RowGroup) : elseRow ∈ rowsOf g := by
  cases g <;> decide

/-- The place of a FRAME64 row in its group, from 0 (R75); of no use for a command. -/
def rowIndex : Instr → Nat
  | .overloadNone _ | .divisorDiv100 _ | .signPos _ | .prefixMega _ | .baseUnitV _ | .suffixDc _ => 1
  | .divisorDiv10 _ | .prefixKilo _ | .baseUnitA _ | .suffixNone _ => 2
  | .divisorNone _ | .prefixMilli _ | .baseUnitOhm _ => 3
  | .prefixMicro _ | .baseUnitDegF _ => 4
  | .prefixNone _ | .baseUnitDegC _ => 5
  | .baseUnitFarad _ => 6
  | .baseUnitHz _ => 7
  | .baseUnitHfe _ => 8
  | .baseUnitUnknown _ => 9
  | _ => 0

theorem encode_rowInstr (g : RowGroup) (k : Nat) (w : FrameWord) : encode (rowInstr g k w) = .frame g w := by
  unfold rowInstr
  split <;> rfl

theorem rowInstr_rowIndex (i : Instr) (g : RowGroup) (w : FrameWord) (h : encode i = .frame g w) :
    rowInstr g (rowIndex i + 1) w = i := by
  cases i <;> cases h <;> rfl

theorem rowIndex_lt (i : Instr) (g : RowGroup) (w : FrameWord) (h : encode i = .frame g w) :
    rowIndex i < (rowsOf g).length := by
  cases i <;> cases h <;> simp [rowIndex, rowsOf]

theorem rowIndex_rowInstr (g : RowGroup) (w : FrameWord) :
    ∀ k ∈ List.range (rowsOf g).length, rowIndex (rowInstr g (k + 1) w) = k := by
  cases g <;> simp [rowsOf, List.range, List.range.loop, rowInstr, rowIndex]

/-- WellFormed is one condition for all rows: the row's own condition holds and no earlier one does (R13). -/
theorem wellFormed_eq_onlyFirst (i : Instr) (g : RowGroup) (w : FrameWord) (h : encode i = .frame g w) :
    WellFormed i = onlyFirst (ruleConditions w g ++ [true]) (rowIndex i) := by
  cases i <;> cases h
  case overloadSentinel | overloadNone | signNeg | signPos | digits =>
    simp [WellFormed, onlyFirst, noneOf, ruleConditions, rowIndex]
  case divisorDiv1000 | divisorDiv100 | divisorDiv10 | divisorNone | suffixAc | suffixDc | suffixNone =>
    simp [WellFormed, onlyFirst, noneOf, ruleConditions, rowIndex, Bool.and_assoc, Bool.and_comm]
  all_goals rfl

/-- A row is well formed exactly on the frames on which the table's masks select it (R75). -/
theorem wellFormed_iff_selected (i : Instr) (g : RowGroup) (w : FrameWord) (h : encode i = .frame g w) :
    WellFormed i = true ↔ selectedPriority g w = rowIndex i + 1 := by
  rw [wellFormed_eq_onlyFirst i g w h, ← rowHolds_rowsOf, selectedPriority, Nat.add_comm,
    firstMatch_eq_iff_onlyFirst w _ 1 _ (rowIndex_lt i g w h)]

theorem decode_encode_row (i : Instr) (g : RowGroup) (w : FrameWord) (h : encode i = .frame g w)
    (wf : WellFormed i = true) : decode (encode i) = i := by
  rw [h, decode, decodeRow, (wellFormed_iff_selected i g w h).1 wf, rowInstr_rowIndex i g w h]

theorem wellFormed_decodeRow (g : RowGroup) (w : FrameWord) : WellFormed (decodeRow g w) = true := by
  apply (wellFormed_iff_selected (decodeRow g w) g w (encode_rowInstr g _ w)).2
  have ge := le_firstMatch w (rowsOf g) 1
  have lt := firstMatch_lt w (rowsOf g) 1 (elseRow_mem_rowsOf g)
  obtain ⟨k, e⟩ := Nat.exists_eq_add_of_le' ge
  rw [decodeRow, selectedPriority, e, rowIndex_rowInstr g w k (List.mem_range.2 (by omega))]

/-- Settles O9: a command word keeps its code and operand, and a well-formed row is the one its group selects. -/
theorem decodeEncodeRoundTrip : Obligations.DecodeEncodeRoundTrip := by
  intro i wf
  cases i
  case reserved8 low w => exact (decodeCommand_commandWord _ w).trans (instrOfCommand_reserved8 low w)
  case nextFrame | decodeRd | decodeValueRd | decodeUnitRd | decodeImm | decodeValueImm | decodeUnitImm | reserved4 =>
    exact decodeCommand_commandWord _ _
  all_goals exact decode_encode_row _ _ _ rfl wf

/-- Settles O10: the row a group selects is well formed, and every row stands in its group and whole frame. -/
theorem everyFrameSelectsARowOfEachGroup : Obligations.EveryFrameSelectsARowOfEachGroup :=
  fun g w => ⟨wellFormed_decodeRow g w, encode_rowInstr g _ w⟩

end Sys2Proof.Proofs
end

section
/-! One decoder (R13, R28, R75, R120): the chains of the rules' pseudocode read the row the table's masks select, so
that no FRAME64 row shows anything but the chains' ports, and decode_value is the rule's pseudocode. -/

namespace Sys2Proof.Proofs

open Sys2Proof.Machine Sys2Proof.Laws

/-! ## What a chain answers where its group selects row k -/

/-- The overload bit of OVERLOAD row k. -/
def overloadAt (k : Nat) : Bool := k = 1

/-- The neg bit of SIGN row k. -/
def negAt (k : Nat) : Bool := k = 1

/-- The divisor of DIVISOR row k. -/
def divSelAt : Nat → DivSel
  | 1 => .div1000
  | 2 => .div100
  | 3 => .div10
  | _ => .none

/-- The scale of PREFIX row k. -/
def prefixSelAt : Nat → PrefixSel
  | 1 => .nano
  | 2 => .mega
  | 3 => .kilo
  | 4 => .milli
  | 5 => .micro
  | _ => .none

/-- The base unit of BASE_UNIT row k. -/
def baseUnitAt : Nat → BaseUnit
  | 1 => .vdiode
  | 2 => .volt
  | 3 => .ampere
  | 4 => .ohm
  | 5 => .degF
  | 6 => .degC
  | 7 => .farad
  | 8 => .hertz
  | 9 => .hfe
  | _ => .unknown

/-- The suffix of SUFFIX row k. -/
def suffixAt : Nat → Suffix
  | 1 => .ac
  | 2 => .dc
  | _ => .none

theorem overload_eq_at (w : FrameWord) : overload w = overloadAt (selectedPriority .overload w) := by
  rw [selectedPriority_overload, overload]
  split_ifs with h <;> simp [h, overloadAt]

theorem neg_eq_at (w : FrameWord) : neg w = negAt (selectedPriority .sign w) := by
  rw [selectedPriority_sign, neg]
  split_ifs with h <;> simp [h, negAt]

theorem divSel_eq_at (w : FrameWord) : divSel w = divSelAt (selectedPriority .divisor w) := by
  simp only [selectedPriority_divisor, divSel, apply_ite divSelAt]
  rfl

theorem prefixSel_eq_at (w : FrameWord) : prefixSel w = prefixSelAt (selectedPriority .metricPrefix w) := by
  simp only [selectedPriority_metricPrefix, prefixSel, apply_ite prefixSelAt]
  rfl

theorem baseUnit_eq_at (w : FrameWord) : baseUnit w = baseUnitAt (selectedPriority .baseUnit w) := by
  simp only [selectedPriority_baseUnit, baseUnit, apply_ite baseUnitAt]
  rfl

theorem suffixSel_eq_at (w : FrameWord) : suffixSel w = suffixAt (selectedPriority .suffix w) := by
  simp only [selectedPriority_suffix, suffixSel, apply_ite suffixAt]
  rfl

/-! ## Observing a row -/

/-- The ports of w are observed, and nothing else changes (R28, R216). -/
def observesPorts (w : FrameWord) (s : State) : Result := .next { s with portView := some (decoderPorts w) }

/-- A row shows the chains' ports where it drives only what they show on the frames that select it; on other frames it
decides nothing (R13). -/
theorem observeRow_eq (g : RowGroup) (k : Nat) (w : FrameWord) (drive : DecoderView → DecoderView) (s : State)
    (agrees : selectedPriority g w = k → drive (decoderPorts w) = decoderPorts w) :
    observeRow g k w drive s = observesPorts w s := by
  rw [observeRow, rowView, observesPorts]
  split
  case isTrue selected => rw [agrees selected]
  case isFalse => rfl

theorem observeRow_divisor (k : Nat) (w : FrameWord) (s : State) :
    observeRow .divisor k w (fun v => { v with divSel := divSelCode (divSelAt k) }) s = observesPorts w s :=
  observeRow_eq _ _ _ _ _ fun selected => by rw [← selected, ← divSel_eq_at]; rfl

theorem observeRow_sign (k : Nat) (w : FrameWord) (s : State) :
    observeRow .sign k w (fun v => { v with neg := BitVec.ofBool (negAt k) }) s = observesPorts w s :=
  observeRow_eq _ _ _ _ _ fun selected => by rw [← selected, ← neg_eq_at]; rfl

theorem observeRow_metricPrefix (k : Nat) (w : FrameWord) (s : State) :
    observeRow .metricPrefix k w (fun v => { v with prefixSel := prefixSelCode (prefixSelAt k) }) s =
      observesPorts w s :=
  observeRow_eq _ _ _ _ _ fun selected => by rw [← selected, ← prefixSel_eq_at]; rfl

theorem observeRow_baseUnit (k : Nat) (w : FrameWord) (s : State) :
    observeRow .baseUnit k w (fun v => driveString (baseUnitString (baseUnitAt k) ++ suffixString (suffixSel w))
      { v with baseUnit := baseUnitCode (baseUnitAt k) }) s = observesPorts w s :=
  observeRow_eq _ _ _ _ _ fun selected => by rw [← selected, ← baseUnit_eq_at]; rfl

theorem observeRow_suffix (k : Nat) (w : FrameWord) (s : State) :
    observeRow .suffix k w (fun v => driveString (baseUnitString (baseUnit w) ++ suffixString (suffixAt k))
      { v with suffix := suffixCode (suffixAt k) }) s = observesPorts w s :=
  observeRow_eq _ _ _ _ _ fun selected => by rw [← selected, ← suffixSel_eq_at]; rfl

/-- OVERLOAD.SENTINEL drives the value too: +inf, which decode_value gives on the sentinel (R121). -/
theorem observeRow_sentinel (w : FrameWord) (s : State) :
    observeRow .overload 1 w (fun v => { v with overload := 1, value := posInf }) s = observesPorts w s :=
  observeRow_eq _ _ _ _ _ fun selected => by
    have sentinel : overload w = true := by rw [overload_eq_at, selected]; rfl
    simp [decoderPorts, decodeValue, sentinel]

theorem observeRow_overloadNone (w : FrameWord) (s : State) :
    observeRow .overload 2 w (fun v => { v with overload := 0 }) s = observesPorts w s :=
  observeRow_eq _ _ _ _ _ fun selected => by
    have plain : overload w = false := by rw [overload_eq_at, selected]; rfl
    simp [decoderPorts, plain]

/-- Settles O51: each group's rows drive what the group's chain answers on the frames that select them. -/
theorem tableRowsAgreeWithChains : Obligations.TableRowsAgreeWithChains := by
  intro i g w s h
  cases i <;> cases h
  case overloadSentinel => exact observeRow_sentinel w s
  case overloadNone => exact observeRow_overloadNone w s
  case divisorDiv1000 => exact observeRow_divisor 1 w s
  case divisorDiv100 => exact observeRow_divisor 2 w s
  case divisorDiv10 => exact observeRow_divisor 3 w s
  case divisorNone => exact observeRow_divisor 4 w s
  case signNeg => exact observeRow_sign 1 w s
  case signPos => exact observeRow_sign 2 w s
  case prefixNano => exact observeRow_metricPrefix 1 w s
  case prefixMega => exact observeRow_metricPrefix 2 w s
  case prefixKilo => exact observeRow_metricPrefix 3 w s
  case prefixMilli => exact observeRow_metricPrefix 4 w s
  case prefixMicro => exact observeRow_metricPrefix 5 w s
  case prefixNone => exact observeRow_metricPrefix 6 w s
  case baseUnitVdiode => exact observeRow_baseUnit 1 w s
  case baseUnitV => exact observeRow_baseUnit 2 w s
  case baseUnitA => exact observeRow_baseUnit 3 w s
  case baseUnitOhm => exact observeRow_baseUnit 4 w s
  case baseUnitDegF => exact observeRow_baseUnit 5 w s
  case baseUnitDegC => exact observeRow_baseUnit 6 w s
  case baseUnitFarad => exact observeRow_baseUnit 7 w s
  case baseUnitHz => exact observeRow_baseUnit 8 w s
  case baseUnitHfe => exact observeRow_baseUnit 9 w s
  case baseUnitUnknown => exact observeRow_baseUnit 10 w s
  case suffixAc => exact observeRow_suffix 1 w s
  case suffixDc => exact observeRow_suffix 2 w s
  case suffixNone => exact observeRow_suffix 3 w s
  case digits => exact observeRow_eq .digits 1 w _ s fun _ => rfl

/-! ## decode_value -/

theorem highNibble_eq (b : Byte) : highNibble b = b.toNat / 16 := by
  have lt := b.isLt
  rw [highNibble, BitVec.extractLsb'_toNat, Nat.shiftRight_eq_div_pow, Nat.mod_eq_of_lt (by omega)]

theorem lowNibble_eq (b : Byte) : lowNibble b = b.toNat % 16 := by
  simp [lowNibble, BitVec.extractLsb'_toNat]

theorem magnitude_eq_bytes (w : FrameWord) :
    magnitude w = 1000 * ((frameByte w 1).toNat / 16) + 100 * ((frameByte w 1).toNat % 16) +
      10 * ((frameByte w 2).toNat / 16) + (frameByte w 2).toNat % 16 := by
  simp only [magnitude, digit3, digit2, digit1, digit0, highNibble_eq, lowNibble_eq]

theorem divideStage_divSel (w : FrameWord) (v : Binary64) :
    divideStage (divSel w) v =
      if bitSet w 0 0x01#8 then fdiv v const1000 else if bitSet w 0 0x02#8 then fdiv v const100
      else if bitSet w 0 0x04#8 then fdiv v const10 else v := by
  simp only [divSel, apply_ite (divideStage · v)]
  rfl

theorem signStage_neg (w : FrameWord) (v : Binary64) :
    signStage (neg w) v = if bitSet w 0 0x40#8 then fneg v else v := by
  simp only [signStage, neg, decide_eq_true_eq]

theorem multiplyStage_prefixSel (w : FrameWord) (v : Binary64) :
    multiplyStage (prefixSel w) v =
      if bitSet w 4 0x02#8 then fmul v constNano else if bitSet w 5 0x10#8 then fmul v constMega
      else if bitSet w 5 0x20#8 then fmul v constKilo else if bitSet w 5 0x40#8 then fmul v constMilli
      else if bitSet w 5 0x80#8 then fmul v constMicro else v := by
  simp only [prefixSel, apply_ite (multiplyStage · v)]
  rfl

/-- Settles O26: stage by stage, each selector's chain is the pseudocode's (R120). -/
theorem decodeValueFollowsPseudocode : Obligations.DecodeValueFollowsPseudocode := by
  intro w
  rw [decodeValue, scaledValue, multiplyStage_prefixSel, signStage_neg, divideStage_divSel, magnitude_eq_bytes]
  simp only [overload, decide_eq_true_eq]
  rfl

end Sys2Proof.Proofs
end

section
/-! The hosts the machine names (R8, R20): each operation names only hosts that were named before it. -/

namespace Sys2Proof.Proofs

open Sys2Proof.Machine Sys2Proof.Laws

/-- The number of a host of h1 to hN (R8). -/
abbrev IsHost (n : Nat) (h : HostId) : Prop := 1 ≤ h ∧ h ≤ n

theorem forall_mem_insertHost {p : HostId → Prop} {h : HostId} {hs : List HostId} (new : p h)
    (old : ∀ k ∈ hs, p k) : ∀ k ∈ insertHost h hs, p k := by
  intro k hk
  rcases (mem_insertHost h k hs).1 hk with rfl | hk
  · exact new
  · exact old k hk

theorem forall_mem_removeHost {p : HostId → Prop} {h : HostId} {hs : List HostId} (old : ∀ k ∈ hs, p k) :
    ∀ k ∈ removeHost h hs, p k :=
  fun k hk => old k ((mem_removeHost h k hs).1 hk).1

/-! ## One rule per operation -/

variable {n : Nat} {s t : State} {h : HostId}

theorem hostsWithin_respond (r : Response) (hh : IsHost n h) (hw : HostsWithin n s) :
    HostsWithin n (respond h r s) :=
  { hw with log := List.forall_mem_append.2 ⟨hw.log, by simpa using hh⟩ }

theorem hostsWithin_takeFault (f : HostId → RecordedFault) (named : (f h).host = h) (hh : IsHost n h)
    (hw : HostsWithin n s) : HostsWithin n (takeFault f h s) :=
  { hw with
    faults := List.forall_mem_append.2 ⟨hw.faults, by simpa [named] using hh⟩
    halted := forall_mem_insertHost hh hw.halted }

theorem hostsWithin_takeRefusal (hh : IsHost n h) (hw : HostsWithin n s) : HostsWithin n (takeRefusal h s) :=
  { hw with halted := forall_mem_insertHost hh hw.halted }

theorem hostsWithin_startCall (hh : IsHost n h) (hw : HostsWithin n s) : HostsWithin n (startCall h s) :=
  { hw with
    owner := by simpa using hh
    waiting := forall_mem_insertHost hh hw.waiting }

/-- A call ends with a response to its owner, a host named already; without one there is no next state. -/
theorem hostsWithin_endCall (status : RdStatus) (r : Response) (hw : HostsWithin n s)
    (next : endCall status r s = .next t) : HostsWithin n t := by
  cases o : s.rdOwner with
  | none => simp [endCall, o] at next
  | some h =>
    rw [endCall_owner status r s h o] at next
    cases next
    exact { hostsWithin_respond r (hw.owner h o) hw with waiting := forall_mem_removeHost hw.waiting }

theorem hostsWithin_consumeEvent (e : StreamEvent) (hw : HostsWithin n s) (next : consumeEvent e s = .next t) :
    HostsWithin n t := by
  cases e with
  | byte b =>
    rcases receiveByte_cases b s with ⟨_, r⟩ | ⟨_, r⟩ <;> rw [consumeEvent, r] at next
    · refine hostsWithin_endCall _ _ ?_ next
      exact { hw with }
    · cases next
      exact { hw with }
  | endOfData => exact hostsWithin_endCall _ _ hw next
  | fail => exact hostsWithin_endCall _ _ hw next

theorem hostsWithin_readerStep (hw : HostsWithin n s) (next : readerStep s = .next t) : HostsWithin n t := by
  unfold readerStep at next
  split at next
  case h_1 =>
    refine hostsWithin_consumeEvent _ ?_ next
    exact { hw with }
  case h_2 =>
    cases next
    exact hw

/-- A reset names h1 as issuer (log entry 10), which is a host since the issuer before it was one. -/
theorem hostsWithin_resetCore (hw : HostsWithin n s) : HostsWithin n (resetCore s) :=
  { hw with
    issuer := ⟨le_rfl, hw.issuer.1.trans hw.issuer.2⟩
    owner := by simp
    log := by simp
    faults := by simp }

theorem hostsWithin_exec (i : Instr) (hw : HostsWithin n s) (next : exec i s = .next t) : HostsWithin n t := by
  rcases exec_cases i s with ⟨w, -, -, e⟩ | e | e | ⟨r, e⟩ | e | ⟨v, e⟩ <;> rw [e] at next <;> cases next
  · exact hostsWithin_startCall hw.issuer hw
  · exact hostsWithin_takeFault _ rfl hw.issuer hw
  · exact hostsWithin_takeFault _ rfl hw.issuer hw
  · exact hostsWithin_respond r hw.issuer hw
  · exact hostsWithin_takeRefusal hw.issuer hw
  · exact { hw with }

/-- The turns after the next one name hosts of the machine too. -/
theorem hostsWithin_rest {u : Turn} {rest : List Turn} (hw : HostsWithin n s) (e : s.schedule = u :: rest) :
    HostsWithin n { s with schedule := rest } :=
  { hw with schedule := fun v hv => hw.schedule v (e ▸ List.mem_cons_of_mem u hv) }

/-- Settles O56: every step is one of these operations, for the issuer, for the call's owner or for the host its turn
names. -/
theorem hostsStayWithinTheirNumber : Obligations.HostsStayWithinTheirNumber := by
  intro n s t hw next
  rcases step_cases s with ⟨-, e⟩ | ⟨h, c, rest, sch, -, e⟩ | ⟨h, c, rest, sch, -, e⟩ |
    ⟨w, g, rest, sch, e⟩ | ⟨rest, sch, e⟩ | ⟨rest, sch, e⟩ <;> rw [e] at next
  · cases next
    exact hw
  · cases next
    exact hostsWithin_rest hw sch
  · have issuer : IsHost n h := hw.schedule (.command h c) (by simp [sch]) h rfl
    exact hostsWithin_exec (s := { s with schedule := rest, issuer := h }) _
      { hostsWithin_rest hw sch with issuer } next
  · exact hostsWithin_exec _ (hostsWithin_rest hw sch) next
  · exact hostsWithin_readerStep (hostsWithin_rest hw sch) next
  · cases next
    exact hostsWithin_resetCore (hostsWithin_rest hw sch)

end Sys2Proof.Proofs
end

section
/-! Rounding to binary64 (R11, IEEE 754 by K1): a positive pattern stands for q quanta of 2^k smallest subnormals, the
patterns are in the order of their magnitudes, and roundBits gives the nearest one, the even one of two as near. -/

namespace Sys2Proof.Proofs

open Sys2Proof.Machine Sys2Proof.Laws

/-! ## The magnitude of the low 63 bits -/

/-- The magnitude of a pattern with these low bits, in units of 2^-1075. -/
def bitsMagnitude (b : Nat) : Nat :=
  if b / 2 ^ 52 = 0 then b % 2 ^ 52 * 2 else (2 ^ 52 + b % 2 ^ 52) * 2 ^ (b / 2 ^ 52)

theorem scaledMagnitude_signed (s : Bool) (b : Nat) (h : b < 2 ^ 63) :
    scaledMagnitude (signed s b) = bitsMagnitude b := by
  rw [scaledMagnitude, expField_signed s b h, fracField_signed s b h, bitsMagnitude]

theorem isFinite_signed_iff (s : Bool) (b : Nat) (h : b < 2 ^ 63) : IsFinite (signed s b) ↔ b < infBits := by
  rw [IsFinite, expField_signed s b h, infBits, Nat.div_lt_iff_lt_mul (Nat.two_pow_pos 52)]

theorem getLsbD_zero_signed (s : Bool) (b : Nat) (h : b < 2 ^ 63) :
    (signed s b).getLsbD 0 = decide (b % 2 = 1) := by
  rw [BitVec.getLsbD, toNat_signed s b h, Nat.testBit_zero]
  congr 2
  omega

theorem exists_signed_false (v : Binary64) (pos : signBit v = false) : ∃ b < 2 ^ 63, v = signed false b := by
  have bit : v.toNat / 2 ^ 63 % 2 ≠ 1 := by
    simpa [signBit, BitVec.getLsbD, Nat.testBit_eq_decide_div_mod_eq] using pos
  have low : v.toNat < 2 ^ 63 := by have := v.isLt; omega
  exact ⟨v.toNat, low, signed_eq_of_toNat v false v.toNat low (by simp)⟩

/-- q quanta of 2^k smallest subnormals, where q is a full significand or the quantum the smallest one; q = 2^53 has
carried into the exponent field. -/
theorem bitsMagnitude_quanta (k q : Nat) (le : q ≤ 2 ^ 53) (full : k = 0 ∨ 2 ^ 52 ≤ q) :
    bitsMagnitude (k * 2 ^ 52 + q) = q * 2 ^ (k + 1) := by
  rw [bitsMagnitude]
  rcases lt_trichotomy q (2 ^ 52) with small | rfl | normal
  · obtain rfl : k = 0 := full.resolve_right (by omega)
    rw [Nat.zero_mul, Nat.zero_add, Nat.div_eq_of_lt small, Nat.mod_eq_of_lt small, if_pos rfl, Nat.zero_add,
      Nat.pow_one]
  · have exp : (k * 2 ^ 52 + 2 ^ 52) / 2 ^ 52 = k + 1 := by omega
    have frac : (k * 2 ^ 52 + 2 ^ 52) % 2 ^ 52 = 0 := by omega
    rw [exp, frac, if_neg (Nat.succ_ne_zero k), Nat.add_zero]
  · rcases le.lt_or_eq with lt | rfl
    · have exp : (k * 2 ^ 52 + q) / 2 ^ 52 = k + 1 := by omega
      have frac : 2 ^ 52 + (k * 2 ^ 52 + q) % 2 ^ 52 = q := by omega
      rw [exp, frac, if_neg (Nat.succ_ne_zero k)]
    · have exp : (k * 2 ^ 52 + 2 ^ 53) / 2 ^ 52 = k + 2 := by omega
      have frac : (k * 2 ^ 52 + 2 ^ 53) % 2 ^ 52 = 0 := by omega
      rw [exp, frac, if_neg (Nat.succ_ne_zero _)]
      ring

theorem exists_quanta (b : Nat) : ∃ k q, b = k * 2 ^ 52 + q ∧ q < 2 ^ 53 ∧ (k = 0 ∨ 2 ^ 52 ≤ q) :=
  ⟨b / 2 ^ 52 - 1, b - (b / 2 ^ 52 - 1) * 2 ^ 52, by omega, by omega, by omega⟩

/-- The patterns are in the order of their magnitudes (R45). -/
theorem bitsMagnitude_strictMono : StrictMono bitsMagnitude := by
  apply strictMono_nat_of_lt_succ
  intro b
  obtain ⟨k, q, rfl, lt, full⟩ := exists_quanta b
  rw [Nat.add_assoc, bitsMagnitude_quanta k q lt.le full, bitsMagnitude_quanta k (q + 1) lt (by omega)]
  exact Nat.mul_lt_mul_of_pos_right (Nat.lt_succ_self q) (Nat.two_pow_pos _)

/-! ## Rounding to an integer -/

/-- How far apart two numbers are. -/
def gap (m n : Nat) : Nat := ((m : Int) - n).natAbs

theorem gap_mul_left (c m n : Nat) : gap (c * m) (c * n) = c * gap m n := by
  rw [gap, gap, Nat.cast_mul, Nat.cast_mul, ← Int.mul_sub, Int.natAbs_mul, Int.natAbs_natCast]

theorem gap_lt_gap {n m k : Nat} (lt : k < m) (le : m ≤ n) : gap n m < gap n k := by
  rw [gap, gap]
  omega

theorem roundHalfEven_mem (n d : Nat) : roundHalfEven n d = n / d ∨ roundHalfEven n d = n / d + 1 := by
  rw [roundHalfEven]
  split
  · exact .inl rfl
  · exact .inr rfl

/-- No multiple p of d is nearer to n than the rounded one, and where another is as near, the rounded one is even. -/
theorem roundHalfEven_nearest (n d p : Nat) (pos : 0 < d) :
    gap n (roundHalfEven n d * d) ≤ gap n (p * d) ∧
      (gap n (roundHalfEven n d * d) = gap n (p * d) → p ≠ roundHalfEven n d → roundHalfEven n d % 2 = 0) := by
  have lt := Nat.mod_lt n pos
  have split := Nat.div_add_mod' n d
  rw [roundHalfEven]
  generalize n / d = a at *
  generalize n % d = r at *
  have near : (p + 1) * d ≤ a * d ∨ p = a ∨ p = a + 1 ∨ (a + 1 + 1) * d ≤ p * d := by
    rcases lt_trichotomy p a with less | rfl | more
    · exact .inl (Nat.mul_le_mul_right d less)
    · exact .inr (.inl rfl)
    · rcases Nat.eq_or_lt_of_le more with rfl | far
      · exact .inr (.inr (.inl rfl))
      · exact .inr (.inr (.inr (Nat.mul_le_mul_right d far)))
  have next (m : Nat) : (m + 1) * d = m * d + d := Nat.succ_mul m d
  have next_a := next a
  have next_next_a := next (a + 1)
  have next_p := next p
  simp only [gap]
  rcases near with below | rfl | rfl | above <;> split_ifs <;> omega

theorem roundHalfEven_mul_of_dvd (n d : Nat) (dvd : d ∣ n) (pos : 0 < d) : roundHalfEven n d * d = n := by
  rw [roundHalfEven, Nat.mod_eq_zero_of_dvd dvd, if_pos (.inl (by omega)), Nat.div_mul_cancel dvd]

/-! ## The quantum and the significand of a rounded magnitude -/

/-- How many bits the quantum of num/den's rounding lies above the smallest subnormal. -/
def roundShift (num den : Nat) : Nat := quantumShift (num * quantaPerOne) den

/-- How many quanta num/den rounds to. -/
def roundSignificand (num den : Nat) : Nat := roundHalfEven (num * quantaPerOne) (den * 2 ^ roundShift num den)

theorem roundBits_eq (num den : Nat) :
    roundBits num den = min (roundShift num den * 2 ^ 52 + roundSignificand num den) infBits := rfl

theorem quantumShift_lt (n d : Nat) : n / (d * 2 ^ quantumShift n d) < 2 ^ 53 := by
  rw [← Nat.div_div_eq_div_mul, Nat.div_lt_iff_lt_mul (Nat.two_pow_pos _), ← Nat.pow_add]
  exact Nat.lt_log2_self.trans_le (Nat.pow_le_pow_right (by omega) (by rw [quantumShift]; omega))

theorem quantumShift_full (n d : Nat) (ne : quantumShift n d ≠ 0) : 2 ^ 52 ≤ n / (d * 2 ^ quantumShift n d) := by
  have log : 52 + quantumShift n d = (n / d).log2 := by rw [quantumShift] at ne ⊢; omega
  have nonzero : n / d ≠ 0 := by
    intro zero
    simp [quantumShift, zero] at ne
  rw [← Nat.div_div_eq_div_mul, Nat.le_div_iff_mul_le (Nat.two_pow_pos _), ← Nat.pow_add, log]
  exact Nat.log2_self_le nonzero

theorem roundSignificand_le (num den : Nat) : roundSignificand num den ≤ 2 ^ 53 := by
  have lt := quantumShift_lt (num * quantaPerOne) den
  rcases roundHalfEven_mem (num * quantaPerOne) (den * 2 ^ roundShift num den) with e | e <;>
    rw [roundSignificand, e, roundShift] <;> omega

theorem roundSignificand_full (num den : Nat) : roundShift num den = 0 ∨ 2 ^ 52 ≤ roundSignificand num den := by
  rcases eq_or_ne (roundShift num den) 0 with zero | ne
  · exact .inl zero
  · have full := quantumShift_full (num * quantaPerOne) den ne
    right
    rcases roundHalfEven_mem (num * quantaPerOne) (den * 2 ^ roundShift num den) with e | e <;>
      rw [roundSignificand, e, roundShift] <;> omega

theorem roundBits_of_lt (num den : Nat) (fin : roundBits num den < infBits) :
    roundBits num den = roundShift num den * 2 ^ 52 + roundSignificand num den := by
  rw [roundBits_eq] at fin ⊢
  omega

theorem bitsMagnitude_roundBits (num den : Nat) (fin : roundBits num den < infBits) :
    bitsMagnitude (roundBits num den) = roundSignificand num den * 2 ^ (roundShift num den + 1) := by
  rw [roundBits_of_lt num den fin,
    bitsMagnitude_quanta _ _ (roundSignificand_le num den) (roundSignificand_full num den)]

theorem two_mul_quantaPerOne : 2 * quantaPerOne = 2 ^ 1075 := by
  rw [show 1075 = 1074 + 1 from rfl, Nat.pow_succ', quantaPerOne]

/-! ## Rounding to the nearest pattern -/

theorem gap_quanta (n den q k : Nat) :
    gap (2 * n) (q * 2 ^ (k + 1) * den) = 2 * gap n (q * (den * 2 ^ k)) := by
  rw [← gap_mul_left]
  congr 1
  ring

/-- No magnitude of a pattern is nearer to num/den than the rounded one's, and where another is as near, the rounded
one's significand is even. A pattern with a smaller quantum than the rounded one's lies below 2^52 of that quantum,
which is no more than num/den. -/
theorem roundBits_nearest (num den b : Nat) (pos : 0 < den) (fin : roundBits num den < infBits) :
    gap (2 * (num * quantaPerOne)) (bitsMagnitude (roundBits num den) * den) ≤
        gap (2 * (num * quantaPerOne)) (bitsMagnitude b * den) ∧
      (gap (2 * (num * quantaPerOne)) (bitsMagnitude (roundBits num den) * den) =
          gap (2 * (num * quantaPerOne)) (bitsMagnitude b * den) →
        b ≠ roundBits num den → roundSignificand num den % 2 = 0) := by
  have rounded := bitsMagnitude_roundBits num den fin
  obtain ⟨j, p, e, lt, full⟩ := exists_quanta b
  have other : bitsMagnitude b = p * 2 ^ (j + 1) := by rw [e, bitsMagnitude_quanta j p lt.le full]
  have unit : 0 < den * 2 ^ roundShift num den := Nat.mul_pos pos (Nat.two_pow_pos _)
  have nearest := fun m => roundHalfEven_nearest (num * quantaPerOne) (den * 2 ^ roundShift num den) m unit
  rw [← roundSignificand] at nearest
  rcases le_or_gt (roundShift num den) j with coarse | fine
  · have whole : p * (den * 2 ^ j) = p * 2 ^ (j - roundShift num den) * (den * 2 ^ roundShift num den) := by
      rw [← Nat.sub_add_cancel coarse, Nat.pow_add, Nat.add_sub_cancel]
      ring
    have ne_of_ne (ne : b ≠ roundBits num den) : p * 2 ^ (j - roundShift num den) ≠ roundSignificand num den := by
      intro same
      apply ne (bitsMagnitude_strictMono.injective _)
      rw [other, rounded, ← same, Nat.mul_assoc, ← Nat.pow_add]
      congr 2
      omega
    rw [rounded, other, gap_quanta, gap_quanta, whole]
    obtain ⟨le, tie⟩ := nearest (p * 2 ^ (j - roundShift num den))
    exact ⟨by omega, fun eq ne => tie (by omega) (ne_of_ne ne)⟩
  · have below : p * (den * 2 ^ j) < 2 ^ 52 * (den * 2 ^ roundShift num den) := by
      have step : 2 ^ (j + 1) ≤ 2 ^ roundShift num den := Nat.pow_le_pow_right (by omega) fine
      calc p * (den * 2 ^ j) < 2 ^ 53 * (den * 2 ^ j) := Nat.mul_lt_mul_of_pos_right lt (by positivity)
        _ = 2 ^ 52 * (den * 2 ^ (j + 1)) := by ring
        _ ≤ 2 ^ 52 * (den * 2 ^ roundShift num den) := by gcongr
    have above : 2 ^ 52 * (den * 2 ^ roundShift num den) ≤ num * quantaPerOne :=
      (Nat.le_div_iff_mul_le unit).1 (quantumShift_full _ _ (by rw [← roundShift]; omega))
    rw [rounded, other, gap_quanta, gap_quanta]
    obtain ⟨le, -⟩ := nearest (2 ^ 52)
    have farther := le.trans_lt (gap_lt_gap below above)
    exact ⟨by omega, fun eq => by omega⟩

/-- Settles O30: distances are gaps of magnitudes, which roundBits makes least. -/
theorem roundingIsToNearestTiesToEven : Obligations.RoundingIsToNearestTiesToEven := by
  intro num den y pos fin _ sign distance
  obtain ⟨b, lt, rfl⟩ := exists_signed_false y sign
  rw [roundNearest, isFinite_signed_iff _ _ (roundBits_lt num den)] at fin
  have distance_eq (c : Nat) (lt : c < 2 ^ 63) :
      distance (signed false c) = gap (2 * (num * quantaPerOne)) (bitsMagnitude c * den) := by
    rw [gap, Nat.mul_left_comm, two_mul_quantaPerOne, ← scaledMagnitude_signed false c lt, Nat.cast_mul num,
      Nat.cast_pow, Nat.cast_ofNat]
  obtain ⟨le, tie⟩ := roundBits_nearest num den b pos fin
  rw [roundNearest, distance_eq _ (roundBits_lt num den), distance_eq b lt,
    getLsbD_zero_signed _ _ (roundBits_lt num den)]
  refine ⟨le, fun eq ne => ?_⟩
  have even := tie eq fun same => ne (same ▸ rfl)
  rw [roundBits_of_lt num den fin]
  simp only [decide_eq_false_iff_not]
  omega

/-! ## Integers -/

theorem quantumShift_mul_two_pow_le (m e : Nat) (lt : m < 2 ^ 53) : quantumShift (m * 2 ^ e) 1 ≤ e := by
  rw [quantumShift, Nat.div_one]
  rcases Nat.eq_zero_or_pos m with rfl | pos
  · simp
  · have below : m * 2 ^ e < 2 ^ (53 + e) := by
      rw [Nat.pow_add]
      exact Nat.mul_lt_mul_of_pos_right lt (Nat.two_pow_pos e)
    have log := (Nat.log2_lt (Nat.mul_pos pos (Nat.two_pow_pos e)).ne').2 below
    omega

theorem two_pow_quantumShift_dvd (m e : Nat) (lt : m < 2 ^ 53) : 2 ^ quantumShift (m * 2 ^ e) 1 ∣ m * 2 ^ e :=
  (Nat.pow_dvd_pow 2 (quantumShift_mul_two_pow_le m e lt)).mul_left m

theorem roundShift_integer_le (m : Nat) (lt : m < 2 ^ 53) : roundShift m 1 ≤ 1074 := by
  rw [roundShift, quantaPerOne]
  exact quantumShift_mul_two_pow_le m 1074 lt

theorem roundSignificand_integer (m : Nat) (lt : m < 2 ^ 53) :
    roundSignificand m 1 * 2 ^ roundShift m 1 = m * quantaPerOne := by
  have dvd : 2 ^ roundShift m 1 ∣ m * quantaPerOne := by
    rw [roundShift, quantaPerOne]
    exact two_pow_quantumShift_dvd m 1074 lt
  rw [roundSignificand, Nat.one_mul, roundHalfEven_mul_of_dvd _ _ dvd (Nat.two_pow_pos _)]

theorem roundBits_integer_lt (m : Nat) (lt : m < 2 ^ 53) : roundBits m 1 < infBits := by
  have shift := roundShift_integer_le m lt
  have significand := roundSignificand_le m 1
  rw [roundBits_eq, infBits]
  omega

/-- Settles O29: every integer below 2^53 is a whole number of its quanta, so that nothing is rounded off. -/
theorem integerConversionIsExact : Obligations.IntegerConversionIsExact := by
  intro n le
  have lt : n.natAbs < 2 ^ 53 := by omega
  have fin := roundBits_integer_lt n.natAbs lt
  have bits := roundBits_lt n.natAbs 1
  refine ⟨(isFinite_signed_iff _ _ bits).2 fin, ?_, signBit_signed _ _ bits⟩
  rw [f64, roundNearest, scaledMagnitude_signed _ _ bits, bitsMagnitude_roundBits _ _ fin, Nat.pow_succ,
    ← Nat.mul_assoc, roundSignificand_integer _ lt, Nat.mul_assoc, Nat.mul_comm quantaPerOne, two_mul_quantaPerOne]

end Sys2Proof.Proofs
end

section
/-! What a turn can do (R20, R102–R106): the step of each kind of turn, the FrameReader's turn case by case, and what
each leaves of the FrameReader, the marks and the responses. -/

namespace Sys2Proof.Proofs

open Sys2Proof.Machine Sys2Proof.Laws

variable {s t : State}

/-! ## The step of each kind of turn -/

theorem step_command {h : HostId} {c : CmdWord} {rest : List Turn} (sch : s.schedule = .command h c :: rest)
    (moves : canMove h s = true) : step s = exec (decodeCommand c) { s with schedule := rest, issuer := h } := by
  simp [step, nextAction, sch, moves, decode]

theorem step_probe {w : FrameWord} {g : RowGroup} {rest : List Turn} (sch : s.schedule = .probe w g :: rest) :
    step s = exec (decodeRow g w) { s with schedule := rest } := by
  simp [step, nextAction, sch, decode]

theorem step_reset {rest : List Turn} (sch : s.schedule = .reset :: rest) :
    step s = .next (resetCore { s with schedule := rest }) := by
  simp [step, nextAction, sch]

/-- Settles O3: a host that is neither blocked nor stopped can move. -/
theorem stepRunsDecodedCommand : Obligations.StepRunsDecodedCommand :=
  fun s h _ _ sch awake going => step_command sch ((canMove_iff h s).2 ⟨awake, going⟩)

/-- Settles O4: a probe turn needs no host that can move. -/
theorem stepRunsProbedRow : Obligations.StepRunsProbedRow :=
  fun _ _ _ _ sch => step_probe sch

/-- Settles O1: a reset turn's step is resetCore. -/
theorem resetLeavesStatedValues : Obligations.ResetLeavesStatedValues :=
  ⟨⟨rfl, rfl, rfl, rfl, rfl, rfl, rfl, rfl⟩,
    fun _ _ sch => ⟨_, step_reset sch, rfl, rfl, rfl, rfl, rfl, rfl, rfl, rfl, rfl⟩⟩

/-! ## The FrameReader's turn -/

/-- What a call's end by h does but for rd_frame, which only a delivery sets (R104–R106). -/
def endedCall (h : HostId) (status : RdStatus) (r : Response) (s : State) : State :=
  { s with
    rdStatus := status, rdBuf := [], rdCount := 0, log := s.log ++ [(h, r)], waiting := removeHost h s.waiting }

/-- Where a call's end gives a next state, the call had an owner, and the response went to it. -/
theorem endCall_next {status : RdStatus} {r : Response} (next : endCall status r s = .next t) :
    ∃ h, s.rdOwner = some h ∧ t = endedCall h status r s := by
  cases o : s.rdOwner with
  | none => simp [endCall, o] at next
  | some h =>
    rw [endCall_owner status r s h o] at next
    cases next
    exact ⟨h, rfl, rfl⟩

/-- The next states of a FrameReader's turn in s: it waits (R101, R108), or while BUSY it takes the first event offered,
which stores a byte, delivers the frame (R104) or ends the call in an error (R105, R106). -/
inductive ReaderTurn (s : State) : State → Prop
  | waits : ReaderTurn s s
  | stores (b : Byte) (es : List StreamEvent) (busy : s.rdStatus = .busy) (offered : s.stream = .byte b :: es)
      (room : s.rdCount + 1 ≠ 8) :
      ReaderTurn s { s with stream := es, rdBuf := bufferWith b s, rdCount := s.rdCount + 1 }
  | delivers (h : HostId) (b : Byte) (es : List StreamEvent) (busy : s.rdStatus = .busy)
      (offered : s.stream = .byte b :: es) (last : s.rdCount + 1 = 8) (owner : s.rdOwner = some h) :
      ReaderTurn s (endedCall h .ok (.frame (frameOfBuffer (bufferWith b s)))
        { s with stream := es, rdFrame := some (frameOfBuffer (bufferWith b s)) })
  | endsShort (h : HostId) (es : List StreamEvent) (busy : s.rdStatus = .busy)
      (offered : s.stream = .endOfData :: es) (owner : s.rdOwner = some h) :
      ReaderTurn s (endedCall h .shortRead .shortReadError { s with stream := es })
  | fails (h : HostId) (es : List StreamEvent) (busy : s.rdStatus = .busy)
      (offered : s.stream = .fail :: es) (owner : s.rdOwner = some h) :
      ReaderTurn s (endedCall h .ioError .ioError { s with stream := es })

theorem readerTurn_of_readerStep (next : readerStep s = .next t) : ReaderTurn s t := by
  by_cases wait : s.rdStatus ≠ .busy ∨ s.stream = []
  · rw [readerStep_waits s wait] at next
    cases next
    exact .waits
  · push Not at wait
    obtain ⟨busy, offers⟩ := wait
    obtain ⟨e, es, offered⟩ := List.exists_cons_of_ne_nil offers
    rw [readerStep_busy s e es busy offered] at next
    cases e with
    | byte b =>
      rcases receiveByte_cases b { s with stream := es } with ⟨last, r⟩ | ⟨room, r⟩ <;>
        rw [consumeEvent, r] at next
      · obtain ⟨h, owner, rfl⟩ := endCall_next next
        exact .delivers h b es busy offered last owner
      · cases next
        exact .stores b es busy offered room
    | endOfData =>
      obtain ⟨h, owner, rfl⟩ := endCall_next next
      exact .endsShort h es busy offered owner
    | fail =>
      obtain ⟨h, owner, rfl⟩ := endCall_next next
      exact .fails h es busy offered owner

/-! ## What a step leaves of the FrameReader -/

/-- A probe's row is observed, whichever row its group selects. -/
theorem exec_decodeRow (g : RowGroup) (w : FrameWord) (s : State) : exec (decodeRow g w) s = observesPorts w s :=
  tableRowsAgreeWithChains (decodeRow g w) g w s (encode_rowInstr g _ w)

theorem sameReader_exec (i : Instr) (other : ∀ w, i ≠ .nextFrame w) (next : exec i s = .next t) :
    SameReader s t := by
  rcases exec_cases i s with ⟨w, rfl, -⟩ | e | e | ⟨r, e⟩ | e | ⟨v, e⟩
  case inl => exact absurd rfl (other w)
  all_goals
    rw [e] at next
    cases next
    simp [SameReader]

theorem rdStatus_exec (i : Instr) (next : exec i s = .next t) :
    t.rdStatus = s.rdStatus ∨ (t.rdStatus = .busy ∧ ∃ w, i = .nextFrame w) := by
  by_cases call : ∃ w, i = .nextFrame w
  · obtain ⟨w, rfl⟩ := call
    rw [exec, execNextFrame] at next
    split at next <;> cases next
    · exact .inl rfl
    · exact .inr ⟨rfl, w, rfl⟩
  · obtain ⟨status, -⟩ := sameReader_exec i (fun w is => call ⟨w, is⟩) next
    exact .inl status

theorem commandCode_of_nextFrame {c : CmdWord} {w : FrameWord} (h : decodeCommand c = .nextFrame w) :
    commandCode c = 0x0#4 := by
  by_contra ne
  rw [decodeCommand, instrOfCommand, if_neg ne] at h
  split_ifs at h

/-- Settles O52: exec changes a register of the FrameReader only where a call starts, and each FrameReader's turn sets
the code of the event it takes. -/
theorem onlyNextFrameTouchesTheReader : Obligations.OnlyNextFrameTouchesTheReader := by
  refine ⟨⟨rfl, rfl, rfl, rfl, rfl, fun s => ?_⟩, fun i _ _ next other => sameReader_exec i other next, ?_⟩
  · cases s.rdStatus <;> decide
  intro s t next
  rcases step_cases s with ⟨-, e⟩ | ⟨h, c, rest, sch, -, e⟩ | ⟨h, c, rest, sch, -, e⟩ |
    ⟨w, g, rest, sch, e⟩ | ⟨rest, sch, e⟩ | ⟨rest, sch, e⟩ <;> rw [e] at next
  · cases next
    exact .inl rfl
  · cases next
    exact .inl rfl
  · rcases rdStatus_exec _ next with same | ⟨busy, w, call⟩
    · exact .inl (congrArg statusCode same)
    · exact .inr (.inr (.inl ⟨congrArg statusCode busy, h, c, rest, sch, commandCode_of_nextFrame call⟩))
  · rw [exec_decodeRow] at next
    cases next
    exact .inl rfl
  · cases readerTurn_of_readerStep next with
    | waits => exact .inl rfl
    | stores => exact .inl rfl
    | delivers h b es busy offered last =>
      exact .inr (.inr (.inr ⟨congrArg statusCode busy, ⟨rest, sch⟩,
        .inl ⟨rfl, Nat.succ.inj last, b, offered⟩⟩))
    | endsShort h es busy offered =>
      exact .inr (.inr (.inr ⟨congrArg statusCode busy, ⟨rest, sch⟩, .inr (.inl ⟨rfl, offered⟩)⟩))
    | fails h es busy offered =>
      exact .inr (.inr (.inr ⟨congrArg statusCode busy, ⟨rest, sch⟩, .inr (.inr ⟨rfl, offered⟩)⟩))
  · cases next
    exact .inr (.inl ⟨rfl, rest, sch⟩)

/-! ## Marks and responses -/

/-- From s to t no mark is cleared, no response changes, and at most one response or fault is added (R30, R206, R239). -/
def KeepsMarks (s t : State) : Prop :=
  (s.refused = true → t.refused = true) ∧
    ((t.log = s.log ∧ t.faults = s.faults) ∨ (∃ e, t.log = s.log ++ [e] ∧ t.faults = s.faults) ∨
      ∃ f, t.faults = s.faults ++ [f] ∧ t.log = s.log)

theorem keepsMarks_of_same (refused : t.refused = s.refused) (log : t.log = s.log) (faults : t.faults = s.faults) :
    KeepsMarks s t :=
  ⟨refused.trans, .inl ⟨log, faults⟩⟩

theorem keepsMarks_exec (i : Instr) (next : exec i s = .next t) : KeepsMarks s t := by
  rcases exec_cases i s with ⟨w, -, -, e⟩ | e | e | ⟨r, e⟩ | e | ⟨v, e⟩ <;> rw [e] at next <;> cases next
  · exact keepsMarks_of_same rfl rfl rfl
  · exact ⟨id, .inr (.inr ⟨_, rfl, rfl⟩)⟩
  · exact ⟨id, .inr (.inr ⟨_, rfl, rfl⟩)⟩
  · exact ⟨id, .inr (.inl ⟨_, rfl, rfl⟩)⟩
  · exact ⟨fun _ => rfl, .inl ⟨rfl, rfl⟩⟩
  · exact keepsMarks_of_same rfl rfl rfl

theorem keepsMarks_readerTurn (turn : ReaderTurn s t) : KeepsMarks s t := by
  cases turn with
  | waits => exact keepsMarks_of_same rfl rfl rfl
  | stores => exact keepsMarks_of_same rfl rfl rfl
  | delivers | endsShort | fails => exact ⟨id, .inr (.inl ⟨_, rfl, rfl⟩)⟩

/-- Settles O54: an instruction and a FrameReader's turn add at most one mark or response, and the other turns but a
reset leave them alone. -/
theorem marksAndResponsesAreNeverCleared : Obligations.MarksAndResponsesAreNeverCleared := by
  intro s t next running
  rcases step_cases s with ⟨-, e⟩ | ⟨h, c, rest, -, -, e⟩ | ⟨h, c, rest, -, -, e⟩ |
    ⟨w, g, rest, -, e⟩ | ⟨rest, -, e⟩ | ⟨rest, sch, -⟩
  case inr.inr.inr.inr.inr => exact absurd sch (running rest)
  all_goals rw [e] at next
  · cases next
    exact keepsMarks_of_same rfl rfl rfl
  · cases next
    exact keepsMarks_of_same rfl rfl rfl
  · exact keepsMarks_exec (s := { s with schedule := rest, issuer := h }) _ next
  · exact keepsMarks_exec (s := { s with schedule := rest }) _ next
  · exact keepsMarks_readerTurn (s := { s with schedule := rest }) (readerTurn_of_readerStep next)

end Sys2Proof.Proofs
end

section
/-! The invariant of the machine (R24–R28, R100, R204–R207): each operation keeps it, and so does every step. -/

namespace Sys2Proof.Proofs

open Sys2Proof.Machine Sys2Proof.Laws

variable {s t : State} {h : HostId}

/-! ## One rule per operation -/

theorem machineInv_respond (r : Response) (inv : MachineInv s) : MachineInv (respond h r s) :=
  { inv with }

/-- A host that is not blocked is stopped: the marks go on naming stopped hosts. -/
theorem machineInv_stopHost (awake : h ∉ s.waiting) (inv : MachineInv s) :
    MachineInv { s with halted := insertHost h s.halted } := by
  obtain ⟨waiting, halted, apart⟩ := inv.hosts
  obtain ⟨charged, -⟩ := inv.marks
  have apart' : ∀ k ∈ s.waiting, k ∉ insertHost h s.halted := fun k blocked stopped =>
    ((mem_insertHost h k s.halted).1 stopped).elim (fun is => awake (is ▸ blocked)) (apart k blocked)
  exact { inv with
    hosts := ⟨waiting, pairwise_insertHost h _ halted, apart'⟩
    marks := ⟨fun f hf => (mem_insertHost h _ _).2 (.inr (charged f hf)), fun _ => insertHost_ne_nil h _⟩ }

theorem machineInv_takeFault (f : HostId → RecordedFault) (named : (f h).host = h) (awake : h ∉ s.waiting)
    (inv : MachineInv s) : MachineInv (takeFault f h s) := by
  have stopped := machineInv_stopHost awake inv
  have charged : (f h).host ∈ insertHost h s.halted := (mem_insertHost h _ _).2 (.inl named)
  exact { stopped with
    marks := ⟨List.forall_mem_append.2 ⟨stopped.marks.1, by simpa using charged⟩, stopped.marks.2⟩ }

theorem machineInv_takeRefusal (awake : h ∉ s.waiting) (inv : MachineInv s) : MachineInv (takeRefusal h s) := by
  have stopped := machineInv_stopHost awake inv
  exact { stopped with marks := ⟨stopped.marks.1, fun _ => insertHost_ne_nil h _⟩ }

theorem machineInv_startCall (going : h ∉ s.halted) (inv : MachineInv s) : MachineInv (startCall h s) := by
  obtain ⟨waiting, halted, apart⟩ := inv.hosts
  exact { inv with
    frame := by simp [FrameHeldWhenOk]
    buffer := by simp [BufferCounted]
    owner := fun _ => ⟨h, (mem_insertHost h h _).2 (.inl rfl), rfl⟩
    hosts := ⟨pairwise_insertHost h _ waiting, halted, forall_mem_insertHost going apart⟩ }

/-- A call has ended: the core is BUSY no more, and its frame is held if the status is OK (R25). -/
theorem machineInv_endedCall {status : RdStatus} (r : Response) (ended : status ≠ .busy)
    (held : s.rdFrame.isSome = true ↔ status = .ok) (hosts : HostListsKept s) (marks : MarksStopHosts s)
    (view : ViewIsEvaluation s) : MachineInv (endedCall h status r s) := by
  obtain ⟨waiting, halted, apart⟩ := hosts
  exact {
    frame := held
    buffer := by simp [BufferCounted, endedCall]
    owner := fun busy => absurd busy ended
    hosts := ⟨pairwise_removeHost h _ waiting, halted, forall_mem_removeHost apart⟩
    marks
    view }

/-- An error ends a call without a frame: none was held while BUSY (R25, R105, R106). -/
theorem machineInv_failedCall {status : RdStatus} (r : Response) (ended : status ≠ .busy) (failed : status ≠ .ok)
    (busy : s.rdStatus = .busy) (inv : MachineInv s) : MachineInv (endedCall h status r s) := by
  refine machineInv_endedCall r ended ?_ inv.hosts inv.marks inv.view
  exact inv.frame.trans (by simp [busy, failed])

theorem machineInv_readerTurn (inv : MachineInv s) (turn : ReaderTurn s t) : MachineInv t := by
  cases turn with
  | waits => exact inv
  | stores b es busy offered room =>
    obtain ⟨counted, few, -⟩ := inv.buffer
    have buffer : (bufferWith b s).length = s.rdCount + 1 := by rw [bufferWith_of_counted b s counted]; simp [counted]
    exact { inv with buffer := ⟨buffer, by simp only; omega, fun idle => absurd busy idle⟩ }
  | delivers => exact machineInv_endedCall _ (by decide) (by simp) inv.hosts inv.marks inv.view
  | endsShort h es busy =>
    exact machineInv_failedCall (s := { s with stream := es }) _ (by decide) (by decide) busy { inv with }
  | fails h es busy =>
    exact machineInv_failedCall (s := { s with stream := es }) _ (by decide) (by decide) busy { inv with }

/-- Of the machine before it, a reset keeps only the lists of hosts (log entry 7). -/
theorem machineInv_resetCore (hosts : HostListsKept s) : MachineInv (resetCore s) where
  frame := by simp [FrameHeldWhenOk]
  buffer := by simp [BufferCounted]
  owner := by simp [OwnerWaits]
  hosts := hosts
  marks := by simp [MarksStopHosts]
  view := by simp [ViewIsEvaluation]

/-- Settles O57: State.reset has no host in either list. -/
theorem invariantHoldsAfterReset : Obligations.InvariantHoldsAfterReset :=
  fun es ts => machineInv_resetCore (s := { State.reset with stream := es, schedule := ts }) (by simp [State.reset])

/-! ## The ports and exec -/

theorem viewIsEvaluation_decoderPorts (w : FrameWord) (s : State) :
    ViewIsEvaluation { s with portView := some (decoderPorts w) } := by
  rintro v ⟨⟩
  rfl

theorem portView_exec_of_command {i : Instr} {c : CmdWord} (command : encode i = .command c)
    (next : exec i s = .next t) : t.portView = s.portView := by
  cases i <;> cases command
  case nextFrame =>
    rw [exec, execNextFrame] at next
    split at next <;> cases next <;> rfl
  case decodeRd | decodeValueRd | decodeUnitRd =>
    simp only [exec, execDecodeRd, execDecodeValueRd, execDecodeUnitRd, decodeOf, decodeValueOf, decodeUnitOf] at next
    split at next <;> cases next <;> rfl
  case decodeImm | decodeValueImm | decodeUnitImm | reserved4 | reserved8 =>
    cases next
    rfl

/-- A FRAME64 row observes the ports, and a command leaves the last observation alone. -/
theorem viewIsEvaluation_exec (i : Instr) (view : ViewIsEvaluation s) (next : exec i s = .next t) :
    ViewIsEvaluation t := by
  cases e : encode i with
  | frame g w =>
    rw [tableRowsAgreeWithChains i g w s e] at next
    cases next
    exact viewIsEvaluation_decoderPorts w s
  | command c =>
    have same := portView_exec_of_command e next
    exact fun v seen => view v (same ▸ seen)

theorem machineInv_exec (i : Instr) (awake : s.issuer ∉ s.waiting) (going : s.issuer ∉ s.halted) (inv : MachineInv s)
    (next : exec i s = .next t) : MachineInv t := by
  have view := viewIsEvaluation_exec i inv.view next
  rcases exec_cases i s with ⟨w, -, -, e⟩ | e | e | ⟨r, e⟩ | e | ⟨v, e⟩ <;> rw [e] at next <;> cases next
  · exact machineInv_startCall going inv
  · exact machineInv_takeFault _ rfl awake inv
  · exact machineInv_takeFault _ rfl awake inv
  · exact machineInv_respond r inv
  · exact machineInv_takeRefusal awake inv
  · exact { inv with view }

/-- Settles O58: a command is issued by a host that can move, a probe only observes the ports, and the FrameReader and a
reset keep the invariant too. -/
theorem everyStepKeepsTheInvariant : Obligations.EveryStepKeepsTheInvariant := by
  intro s t inv next
  rcases step_cases s with ⟨-, e⟩ | ⟨h, c, rest, -, -, e⟩ | ⟨h, c, rest, -, moves, e⟩ |
    ⟨w, g, rest, -, e⟩ | ⟨rest, -, e⟩ | ⟨rest, -, e⟩ <;> rw [e] at next
  · cases next
    exact inv
  · cases next
    exact { inv with }
  · obtain ⟨awake, going⟩ := (canMove_iff h s).1 moves
    exact machineInv_exec (s := { s with schedule := rest, issuer := h }) _ awake going { inv with } next
  · rw [exec_decodeRow] at next
    cases next
    exact { inv with view := viewIsEvaluation_decoderPorts w s }
  · exact machineInv_readerTurn (s := { s with schedule := rest }) { inv with } (readerTurn_of_readerStep next)
  · cases next
    exact machineInv_resetCore inv.hosts

end Sys2Proof.Proofs
end

section
/-! The NEXT_FRAME call (R100–R107): the FrameReader's turn on each event, the call that stores the bytes offered, its
two kinds of end, and the stream, which no other turn consumes (R50, R102). -/

namespace Sys2Proof.Proofs

open Sys2Proof.Machine Sys2Proof.Laws

variable {s t : State} {h : HostId} {c : CmdWord} {b : Byte} {es : List StreamEvent} {rest : List Turn}

/-! ## The turn on each event -/

theorem step_reader_busy {e : StreamEvent} (sch : s.schedule = .reader :: rest) (busy : s.rdStatus = .busy)
    (offered : s.stream = e :: es) : step s = consumeEvent e { s with schedule := rest, stream := es } := by
  have turn : step s = readerStep { s with schedule := rest } := by simp [step, nextAction, sch]
  exact turn.trans (readerStep_busy _ e es busy offered)

theorem receiveByte_stores (counted : s.rdBuf.length = s.rdCount) (room : s.rdCount < 7) :
    receiveByte b s = .next { s with rdBuf := s.rdBuf ++ [b], rdCount := s.rdCount + 1 } := by
  rcases receiveByte_cases b s with ⟨last, -⟩ | ⟨-, stored⟩
  · omega
  · rw [stored, bufferWith_of_counted b s counted]

theorem receiveByte_delivers (counted : s.rdBuf.length = s.rdCount) (last : s.rdCount = 7)
    (owner : s.rdOwner = some h) :
    receiveByte b s = .next (endedCall h .ok (.frame (frameOfBuffer (s.rdBuf ++ [b])))
      { s with rdFrame := some (frameOfBuffer (s.rdBuf ++ [b])) }) := by
  rcases receiveByte_cases b s with ⟨-, delivered⟩ | ⟨room, -⟩
  · rw [delivered, bufferWith_of_counted b s counted]
    exact endCall_owner _ _ _ h owner
  · omega

/-- Settles O15: the turn is receiveByte, on either side of the eighth byte. -/
theorem byteStepStoresOrDelivers : Obligations.ByteStepStoresOrDelivers := by
  intro s b es rest h sch busy offered counted owner
  rw [step_reader_busy sch busy offered]
  refine ⟨fun room => receiveByte_stores counted room, fun last => ?_⟩
  exact ⟨frameOfBuffer (s.rdBuf ++ [b]), removeHost h s.waiting, receiveByte_delivers counted last owner,
    frameByte_frameOfBuffer _, fun k => mem_removeHost h k s.waiting⟩

/-! ## A whole call -/

theorem step_nextFrame (sch : s.schedule = .command h c :: rest) (moves : canMove h s = true)
    (code : commandCode c = 0) (idle : s.rdStatus ≠ .busy) :
    step s = .next (startCall h { s with schedule := rest, issuer := h }) := by
  rw [step_command sch moves, decodeCommand, code]
  exact if_neg idle

/-- The machine s after the FrameReader has stored the bytes bs too, with the events es and the turns rest to come. -/
def storing (bs : List Byte) (es : List StreamEvent) (rest : List Turn) (s : State) : State :=
  { s with schedule := rest, stream := es, rdBuf := s.rdBuf ++ bs, rdCount := s.rdCount + bs.length }

theorem storing_storing (bs cs : List Byte) (es fs : List StreamEvent) (us rest : List Turn) (s : State) :
    storing cs fs rest (storing bs es us s) = storing (bs ++ cs) fs rest s := by
  simp [storing, Nat.add_assoc]

/-- While the frame is not complete, a turn for each byte offered stores that byte. -/
theorem runSteps_stores (n : Nat) (bs : List Byte) (sch : s.schedule = List.replicate bs.length .reader ++ rest)
    (busy : s.rdStatus = .busy) (offered : s.stream = bs.map .byte ++ es) (counted : s.rdBuf.length = s.rdCount)
    (room : s.rdCount + bs.length < 8) : runSteps (n + bs.length) s = runSteps n (storing bs es rest s) := by
  induction bs generalizing s with
  | nil =>
    obtain rfl : s.schedule = rest := sch
    obtain rfl : s.stream = es := offered
    simp [storing]
  | cons b bs ih =>
    rw [List.length_cons] at room
    have stored : step s = .next (storing [b] (bs.map .byte ++ es) (List.replicate bs.length .reader ++ rest) s) :=
      (step_reader_busy sch busy offered).trans (receiveByte_stores counted (by simp only; omega))
    have later := ih (s := storing [b] _ _ s) rfl busy rfl (by simp [storing, counted])
      (by simp only [storing, List.length_singleton]; omega)
    exact (runSteps_succ _ _ _ stored).trans (later.trans (by rw [storing_storing, List.singleton_append]))

/-- The machine s with a call of host h under way and the bytes bs stored. -/
def callHolding (h : HostId) (bs : List Byte) (es : List StreamEvent) (rest : List Turn) (s : State) : State :=
  storing bs es rest (startCall h { s with issuer := h })

theorem rdBuf_length_callHolding (bs : List Byte) :
    (callHolding h bs es rest s).rdBuf.length = (callHolding h bs es rest s).rdCount := by
  simp [callHolding, storing]

theorem rdCount_callHolding (bs : List Byte) : (callHolding h bs es rest s).rdCount = bs.length := by
  simp [callHolding, storing]

/-- The call starts and stores each byte offered. -/
theorem runSteps_callHolding (n : Nat) (bs : List Byte) (idle : s.rdStatus ≠ .busy) (moves : canMove h s = true)
    (code : commandCode c = 0) (few : bs.length < 8) (offered : s.stream = bs.map .byte ++ es)
    (sch : s.schedule = .command h c :: (List.replicate bs.length .reader ++ rest)) :
    runSteps (n + bs.length + 1) s = runSteps n (callHolding h bs es rest s) :=
  (runSteps_succ _ _ _ (step_nextFrame sch moves code idle)).trans
    (runSteps_stores n bs rfl rfl offered rfl (by simpa using few))

/-- The call takes the event e after the bytes it stores. -/
theorem runSteps_call (bs : List Byte) (e : StreamEvent) (idle : s.rdStatus ≠ .busy) (moves : canMove h s = true)
    (code : commandCode c = 0) (few : bs.length < 8) (offered : s.stream = bs.map .byte ++ e :: es)
    (sch : s.schedule = .command h c :: (List.replicate (bs.length + 1) .reader ++ rest))
    (taken : consumeEvent e (callHolding h bs es rest s) = .next t) : runSteps (bs.length + 2) s = .next t := by
  rw [List.replicate_succ', List.append_assoc] at sch
  have last : step (callHolding h bs (e :: es) (.reader :: rest) s) = .next t :=
    (step_reader_busy rfl rfl rfl).trans taken
  calc runSteps (bs.length + 2) s
      = runSteps (1 + bs.length + 1) s := by rw [Nat.add_comm 1]
    _ = runSteps 1 (callHolding h bs (e :: es) (.reader :: rest) s) :=
      runSteps_callHolding 1 bs idle moves code few offered sch
    _ = .next t := runSteps_succ 0 _ t last

/-- The owner of a call that has ended can move again. -/
theorem canMove_endedCall {status : RdStatus} {r : Response} (going : h ∉ s.halted) :
    canMove h (endedCall h status r s) = true :=
  (canMove_iff h _).2 ⟨fun blocked => ((mem_removeHost h h _).1 blocked).2 rfl, going⟩

/-- Settles O17: seven turns store a byte each, and the eighth delivers the frame. -/
theorem nextFrameDeliversEightBytes : Obligations.NextFrameDeliversEightBytes := by
  intro s h c bs es rest idle moves code eight offered sch
  obtain ⟨-, going⟩ := (canMove_iff h s).1 moves
  rcases bs.eq_nil_or_concat' with rfl | ⟨init, b, rfl⟩
  · cases eight
  have seven : init.length = 7 := by simpa using eight
  have run := runSteps_call init (.byte b) idle moves code (by omega) (by simpa using offered)
    (by rwa [seven]) (receiveByte_delivers (rdBuf_length_callHolding init) ((rdCount_callHolding init).trans seven) rfl)
  rw [seven] at run
  exact ⟨_, _, run, frameByte_frameOfBuffer _, rfl, rfl, rfl, rfl, canMove_endedCall going, rfl, rfl, rfl⟩

/-- Settles O18: a turn stores each byte offered, and the next one takes End or Fail. -/
theorem nextFrameFailsOnShortStream : Obligations.NextFrameFailsOnShortStream := by
  intro s h c bs e es rest idle moves code few error offered sch
  obtain ⟨-, going⟩ := (canMove_iff h s).1 moves
  have run {t : State} := runSteps_call bs e (t := t) idle moves code few offered sch
  have owner : (callHolding h bs es rest s).rdOwner = some h := rfl
  rcases error with rfl | rfl
  · exact ⟨_, run (endCall_owner .shortRead .shortReadError _ h owner), rfl, rfl, rfl, rfl,
      canMove_endedCall going, rfl, fun _ => ⟨rfl, rfl⟩, nofun⟩
  · exact ⟨_, run (endCall_owner .ioError .ioError _ h owner), rfl, rfl, rfl, rfl,
      canMove_endedCall going, rfl, nofun, fun _ => ⟨rfl, rfl⟩⟩

/-! ## Who consumes the stream -/

theorem stream_exec (i : Instr) (next : exec i s = .next t) : t.stream = s.stream := by
  rcases exec_cases i s with ⟨w, -, -, e⟩ | e | e | ⟨r, e⟩ | e | ⟨v, e⟩ <;> rw [e] at next <;> cases next <;> rfl

theorem stream_readerTurn (turn : ReaderTurn s t) :
    t.stream = s.stream ∨ (s.rdStatus = .busy ∧ ∃ e, s.stream = e :: t.stream) := by
  cases turn with
  | waits => exact .inl rfl
  | stores b es busy offered => exact .inr ⟨busy, _, offered⟩
  | delivers h b es busy offered => exact .inr ⟨busy, _, offered⟩
  | endsShort h es busy offered => exact .inr ⟨busy, _, offered⟩
  | fails h es busy offered => exact .inr ⟨busy, _, offered⟩

/-- Settles O19: exec and a reset leave the stream alone. -/
theorem onlyTheReaderConsumesEvents : Obligations.OnlyTheReaderConsumesEvents := by
  intro s t next
  rcases step_cases s with ⟨-, e⟩ | ⟨h, c, rest, -, -, e⟩ | ⟨h, c, rest, -, -, e⟩ |
    ⟨w, g, rest, -, e⟩ | ⟨rest, sch, e⟩ | ⟨rest, -, e⟩ <;> rw [e] at next
  · cases next
    exact .inl rfl
  · cases next
    exact .inl rfl
  · exact .inl (stream_exec (s := { s with schedule := rest, issuer := h }) _ next)
  · exact .inl (stream_exec (s := { s with schedule := rest }) _ next)
  · exact (stream_readerTurn (readerTurn_of_readerStep next)).imp_right
      fun ⟨busy, taken⟩ => ⟨busy, taken, rest, sch⟩
  · cases next
    exact .inl rfl

end Sys2Proof.Proofs
end

section
/-! The DECODE commands (R52, R181, R213): where a frame is at hand, the response is a function of the command and of
rd_frame, and giving it changes nothing but the log. -/

namespace Sys2Proof.Proofs

open Sys2Proof.Machine Sys2Proof.Laws

variable {s : State} {h k : HostId} {c d : CmdWord} {p q : Response} {rest : List Turn}

/-- Command c is answered with p, to whoever issues it, in every state whose rd_frame is f. -/
def Answers (c : CmdWord) (f : Option FrameWord) (p : Response) : Prop :=
  ∀ s : State, s.rdFrame = f → exec (decodeCommand c) s = .next (respond s.issuer p s)

/-- Each of the six DECODE commands with a frame at hand has its response. -/
theorem exists_answers (c : CmdWord) (f : Option FrameWord)
    (atHand : commandCode c ∈ [5#4, 6#4, 7#4] ∨ (commandCode c ∈ [1#4, 2#4, 3#4] ∧ f ≠ none)) :
    ∃ p, Answers c f p := by
  simp only [List.mem_cons, List.not_mem_nil, or_false] at atHand
  unfold Answers decodeCommand
  rcases atHand with (code | code | code) | ⟨code | code | code, held⟩ <;> rw [code]
  · exact ⟨measurement (commandOperand c), fun _ _ => rfl⟩
  · exact ⟨.value (decodeValue (commandOperand c)), fun _ _ => rfl⟩
  · exact ⟨.unit (decodeUnit (commandOperand c)), fun _ _ => rfl⟩
  all_goals obtain ⟨w, rfl⟩ := Option.ne_none_iff_exists'.1 held
  · exact ⟨measurement w, fun s e => congrArg (decodeOf · s) e⟩
  · exact ⟨.value (decodeValue w), fun s e => congrArg (decodeValueOf · s) e⟩
  · exact ⟨.unit (decodeUnit w), fun s e => congrArg (decodeUnitOf · s) e⟩

theorem step_answers (ans : Answers c s.rdFrame p) (moves : canMove h s = true)
    (sch : s.schedule = .command h c :: rest) :
    step s = .next { s with schedule := rest, issuer := h, log := s.log ++ [(h, p)] } :=
  (step_command sch moves).trans (ans _ rfl)

/-- The first of two answers leaves rd_frame and the second host's freedom to move as they were. -/
theorem runSteps_answers_answers (ansC : Answers c s.rdFrame p) (ansD : Answers d s.rdFrame q)
    (movesH : canMove h s = true) (movesK : canMove k s = true)
    (sch : s.schedule = .command h c :: .command k d :: rest) :
    runSteps 2 s = .next { s with schedule := rest, issuer := k, log := s.log ++ [(h, p), (k, q)] } := by
  have first := step_answers ansC movesH sch
  have second := step_answers (s := { s with schedule := .command k d :: rest, issuer := h, log := s.log ++ [(h, p)] })
    ansD movesK rfl
  rw [runSteps_succ 1 _ _ first, runSteps_succ 0 _ _ second]
  simp [runSteps]

/-- Settles O60: each response is the one rd_frame and the command give, in either order. -/
theorem decodesOfTwoHostsCommute : Obligations.DecodesOfTwoHostsCommute := by
  intro s h k c d rest atHandC atHandD movesH movesK
  obtain ⟨p, ansC⟩ := exists_answers c s.rdFrame atHandC
  obtain ⟨q, ansD⟩ := exists_answers d s.rdFrame atHandD
  exact ⟨p, q, step_answers ansC movesH rfl, step_answers ansD movesK rfl,
    runSteps_answers_answers ansC ansD movesH movesK rfl, runSteps_answers_answers ansD ansC movesK movesH rfl⟩

end Sys2Proof.Proofs
end

section
/-! Command words and lines (R70–R74, R204, R207): a command word is its code and its operand, the words of a line
decode to its commands, and a reserved code is refused. -/

namespace Sys2Proof.Proofs

open Sys2Proof.Machine Sys2Proof.Laws

/-! ## Every bit of a command word is kept -/

theorem commandWord_code_operand (c : CmdWord) : commandWord (commandCode c) (commandOperand c) = c := by
  apply BitVec.eq_of_getLsbD_eq
  intro j hj
  by_cases low : j < 4
  · simp [commandWord, commandCode, hj, low]
  · simp [commandWord, commandOperand, commandCode, hj, low, show j - 4 < 64 by omega, show 4 + (j - 4) = j by omega]

theorem reserved8_code (cmd : BitVec 4) (ge : 0x8#4 ≤ cmd) : 1#1 ++ cmd.extractLsb' 0 3 = cmd := by
  revert cmd
  decide

theorem encode_instrOfCommand (cmd : BitVec 4) (w : FrameWord) :
    encode (instrOfCommand cmd w) = .command (commandWord cmd w) := by
  by_cases ge : 0x8#4 ≤ cmd
  · rw [instrOfCommand_of_ge cmd w ge, encode, reserved8_code cmd ge]
  · have codes : ∀ c : BitVec 4, ¬ 0x8#4 ≤ c → c ∈ [0#4, 1#4, 2#4, 3#4, 4#4, 5#4, 6#4, 7#4] := by decide
    have code := codes cmd ge
    simp only [List.mem_cons, List.not_mem_nil, or_false] at code
    rcases code with rfl | rfl | rfl | rfl | rfl | rfl | rfl | rfl <;> rfl

/-- Settles O8: encode puts back the code and the operand that decodeCommand took, and these are the whole word. -/
theorem commandWordsLoseNoBit : Obligations.CommandWordsLoseNoBit :=
  ⟨fun c => (encode_instrOfCommand _ _).trans (congrArg RawInstr.command (commandWord_code_operand c)),
    fun cmd w => ⟨commandCode_commandWord cmd w, commandOperand_commandWord cmd w⟩⟩

/-- Settles O7, by evaluation of the decoder on each word. -/
theorem sampleWordsDecode : Obligations.SampleWordsDecode := by
  unfold Obligations.SampleWordsDecode
  decide

/-! ## Reserved codes -/

theorem decodeCommand_reserved (c : CmdWord) (reserved : commandCode c = 0x4#4 ∨ 0x8#4 ≤ commandCode c) :
    decodeCommand c = .reserved4 (commandOperand c) ∨
      ∃ low, decodeCommand c = .reserved8 low (commandOperand c) := by
  unfold decodeCommand
  rcases reserved with four | ge
  · exact .inl (by rw [four]; rfl)
  · exact .inr ⟨_, instrOfCommand_of_ge _ _ ge⟩

/-- Settles O24: both constructors of the reserved codes take the refusal of the issuer. -/
theorem reservedCommandIsRefused : Obligations.ReservedCommandIsRefused := by
  intro s
  refine ⟨insertHost s.issuer s.halted, fun k => mem_insertHost _ k _, fun c reserved => ?_, fun _ _ => ⟨rfl, rfl⟩⟩
  obtain four | ⟨low, eight⟩ := decodeCommand_reserved c reserved
  · rw [four]; rfl
  · rw [eight]; rfl

/-! ## The words of a line -/

theorem asmCommand_rd (op : BitVec 2) : asmCommand op .rd = op.setWidth 68 := by
  revert op
  decide

theorem asmCommand_literal (op : BitVec 2) (bs : List Byte) :
    asmCommand op (.literal bs) = (packBytes 64 bs).setWidth 68 <<< 4 ||| (op.setWidth 68 ||| 4#68) := by
  have code : ∀ op : BitVec 2, (1#2 ++ op).setWidth 68 = op.setWidth 68 ||| 4#68 := by decide
  rw [asmCommand, commandWord, code]

theorem decodeCommand_asmCommand_literal (op : BitVec 2) (bs : List Byte) :
    decodeCommand (asmCommand op (.literal bs)) = instrOfCommand (1#2 ++ op) (frameOfBuffer bs) :=
  decodeCommand_commandWord _ _

/-- Settles O11: W is the word of the literal's bytes, and the code of its line is 4 above the RD form's. -/
theorem assembledWordIsShiftedFrame : Obligations.AssembledWordIsShiftedFrame := by
  refine ⟨by decide, by decide, fun bs _ => ?_, fun op bs => ⟨asmCommand_literal op bs, asmCommand_rd op⟩⟩
  have word := fun op : BitVec 2 => congrArg (fun c : CmdWord => [c]) (asmCommand_literal op bs)
  have instr := fun op : BitVec 2 => congrArg (fun i : Instr => [i]) (decodeCommand_asmCommand_literal op bs)
  exact ⟨frameOfBuffer bs, frameByte_frameOfBuffer bs, word 1, word 2, word 3, instr 1, instr 2, instr 3⟩

/-! ## READ_DECODE -/

theorem rdFrame_eq_none {s : State} (held : FrameHeldWhenOk s) (notOk : s.rdStatus ≠ .ok) : s.rdFrame = none :=
  Option.not_isSome_iff_eq_none.1 fun isSome => notOk (held.1 isSome)

theorem exec_decodeRd_of_none {s : State} (w : FrameWord) (empty : s.rdFrame = none) :
    exec (.decodeRd w) s = .next (takeFault .noFrame s.issuer s) :=
  congrArg (decodeOf · s) empty

/-- Settles O12: the two words decode as they should, and after an error rd_frame holds no value (R25, R204). -/
theorem readDecodeExpandsToTwoCommands : Obligations.ReadDecodeExpandsToTwoCommands := by
  refine ⟨fun h => ⟨_, _, rfl, by decide, by decide⟩, fun s held failed => ?_⟩
  have notOk : s.rdStatus ≠ .ok := by rcases failed with e | e <;> simp [e]
  exact exec_decodeRd_of_none 0 (rdFrame_eq_none held notOk)

end Sys2Proof.Proofs
end

section
/-! The FRAME64 rows and the ports they drive (R62, R65–R69, R75, R76, R122): on the frames that select it, a row shows
what its group's chain answers at the row's own place. -/

namespace Sys2Proof.Proofs

open Sys2Proof.Machine Sys2Proof.Laws

variable {i : Instr} {w : FrameWord}

/-! ## The magnitude -/

theorem extractLsb'_frameByte (w : FrameWord) (k start len : Nat) (within : start + len ≤ 8) :
    (frameByte w k).extractLsb' start len = w.extractLsb' (8 * k + start) len := by
  apply BitVec.eq_of_getLsbD_eq
  intro j hj
  simp only [BitVec.getLsbD_extractLsb', getLsbD_frameByte, show start + j < 8 by omega, decide_true, Bool.true_and,
    Nat.add_assoc]

theorem magnitude_eq_fields (w : FrameWord) :
    magnitude w = 1000 * (w.extractLsb' 12 4).toNat + 100 * (w.extractLsb' 8 4).toNat +
      10 * (w.extractLsb' 20 4).toNat + (w.extractLsb' 16 4).toNat := by
  simp only [magnitude, digit3, digit2, digit1, digit0, highNibble, lowNibble]
  rw [extractLsb'_frameByte w 1 4 4 (by decide), extractLsb'_frameByte w 1 0 4 (by decide),
    extractLsb'_frameByte w 2 4 4 (by decide), extractLsb'_frameByte w 2 0 4 (by decide)]

theorem magnitude_le (w : FrameWord) (d : Nat) (h3 : digit3 w ≤ d) (h2 : digit2 w ≤ d) (h1 : digit1 w ≤ d)
    (h0 : digit0 w ≤ d) : magnitude w ≤ 1111 * d := by
  rw [magnitude]
  omega

/-- Settles O28: a nibble is at most 15, a decimal digit at most 9, and the weights add up to 1111. -/
theorem magnitudeStaysInRange : Obligations.MagnitudeStaysInRange := by
  intro w
  have nibble : ∀ n : BitVec 4, n.toNat ≤ 15 := fun n => Nat.le_of_lt_succ n.isLt
  exact ⟨magnitude_eq_fields w, magnitude_le w 15 (nibble _) (nibble _) (nibble _) (nibble _),
    fun ⟨h3, h2, h1, h0⟩ => magnitude_le w 9 h3 h2 h1 h0⟩

/-! ## The rows of each group -/

/-- Settles O50: the row shows the chains' ports, and the magnitude beside them is that of the four fields. -/
theorem digitsRowFormsMagnitude : Obligations.DigitsRowFormsMagnitude :=
  fun w s => ⟨decoderPorts w, tableRowsAgreeWithChains (.digits w) .digits w s rfl, rfl, magnitude_eq_fields w⟩

/-- Settles O44: overload is the sentinel's test, and decode_value gives +inf where it holds (R121). -/
theorem overloadRowsDrivePort : Obligations.OverloadRowsDrivePort := by
  refine fun w s => ⟨fun sentinel => ?_, fun plain => ?_⟩
  · have on : overload w = true := decide_eq_true sentinel
    exact ⟨decoderPorts w, tableRowsAgreeWithChains (.overloadSentinel w) .overload w s rfl, rfl,
      congrArg BitVec.ofBool on, if_pos on⟩
  · have off : overload w = false := decide_eq_false plain
    exact ⟨decoderPorts w, tableRowsAgreeWithChains (.overloadNone w) .overload w s rfl, rfl,
      congrArg BitVec.ofBool off⟩

/-- Settles O46: neg is the test of bit 0x40 of F[0] (R125). -/
theorem signRowsDrivePort : Obligations.SignRowsDrivePort := by
  refine fun w s => ⟨fun set => ?_, fun clear => ?_⟩
  · have on : neg w = true := decide_eq_true set
    exact ⟨decoderPorts w, tableRowsAgreeWithChains (.signNeg w) .sign w s rfl, rfl, congrArg BitVec.ofBool on⟩
  · have off : neg w = false := decide_eq_false (not_not.2 clear)
    exact ⟨decoderPorts w, tableRowsAgreeWithChains (.signPos w) .sign w s rfl, rfl, congrArg BitVec.ofBool off⟩

theorem divSel_of_row (row : encode i = .frame .divisor w) (wf : WellFormed i = true) :
    divSel w = divSelAt (rowIndex i + 1) := by
  rw [divSel_eq_at, (wellFormed_iff_selected i _ w row).1 wf]

theorem prefixSel_of_row (row : encode i = .frame .metricPrefix w) (wf : WellFormed i = true) :
    prefixSel w = prefixSelAt (rowIndex i + 1) := by
  rw [prefixSel_eq_at, (wellFormed_iff_selected i _ w row).1 wf]

theorem baseUnit_of_row (row : encode i = .frame .baseUnit w) (wf : WellFormed i = true) :
    baseUnit w = baseUnitAt (rowIndex i + 1) := by
  rw [baseUnit_eq_at, (wellFormed_iff_selected i _ w row).1 wf]

theorem suffixSel_of_row (row : encode i = .frame .suffix w) (wf : WellFormed i = true) :
    suffixSel w = suffixAt (rowIndex i + 1) := by
  rw [suffixSel_eq_at, (wellFormed_iff_selected i _ w row).1 wf]

/-- Settles O45: each row's code is that of the divisor at its place in the group. -/
theorem divisorRowsDrivePort : Obligations.DivisorRowsDrivePort := by
  intro w s i code listed wf
  obtain ⟨row, drives⟩ : encode i = .frame .divisor w ∧ divSelCode (divSelAt (rowIndex i + 1)) = code := by
    simp only [List.mem_cons, List.not_mem_nil, or_false, Prod.mk.injEq] at listed
    rcases listed with ⟨rfl, rfl⟩ | ⟨rfl, rfl⟩ | ⟨rfl, rfl⟩ | ⟨rfl, rfl⟩ <;> exact ⟨rfl, rfl⟩
  exact ⟨decoderPorts w, tableRowsAgreeWithChains i _ w s row, rfl,
    (congrArg divSelCode (divSel_of_row row wf)).trans drives⟩

/-- Settles O47: each row's code is that of the scale at its place in the group. -/
theorem prefixRowsDrivePort : Obligations.PrefixRowsDrivePort := by
  intro w s i code listed wf
  obtain ⟨row, drives⟩ :
      encode i = .frame .metricPrefix w ∧ prefixSelCode (prefixSelAt (rowIndex i + 1)) = code := by
    simp only [List.mem_cons, List.not_mem_nil, or_false, Prod.mk.injEq] at listed
    rcases listed with ⟨rfl, rfl⟩ | ⟨rfl, rfl⟩ | ⟨rfl, rfl⟩ | ⟨rfl, rfl⟩ | ⟨rfl, rfl⟩ | ⟨rfl, rfl⟩ <;>
      exact ⟨rfl, rfl⟩
  exact ⟨decoderPorts w, tableRowsAgreeWithChains i _ w s row, rfl,
    (congrArg prefixSelCode (prefixSel_of_row row wf)).trans drives⟩

/-- Settles O48: each row's code and string are those of the base unit at its place in the group. -/
theorem baseUnitRowsDrivePorts : Obligations.BaseUnitRowsDrivePorts := by
  intro w s i code u listed wf
  obtain ⟨row, drives, shows⟩ : encode i = .frame .baseUnit w ∧
      baseUnitCode (baseUnitAt (rowIndex i + 1)) = code ∧ baseUnitString (baseUnitAt (rowIndex i + 1)) = u := by
    simp only [List.mem_cons, List.not_mem_nil, or_false, Prod.mk.injEq] at listed
    rcases listed with ⟨rfl, rfl, rfl⟩ | ⟨rfl, rfl, rfl⟩ | ⟨rfl, rfl, rfl⟩ | ⟨rfl, rfl, rfl⟩ | ⟨rfl, rfl, rfl⟩ |
      ⟨rfl, rfl, rfl⟩ | ⟨rfl, rfl, rfl⟩ | ⟨rfl, rfl, rfl⟩ | ⟨rfl, rfl, rfl⟩ | ⟨rfl, rfl, rfl⟩ <;>
      exact ⟨rfl, rfl, rfl⟩
  have unit : decodeUnit w = u ++ suffixString (suffixSel w) := by
    rw [decodeUnit, unitString, baseUnit_of_row row wf, shows]
  exact ⟨decoderPorts w, tableRowsAgreeWithChains i _ w s row, rfl,
    (congrArg baseUnitCode (baseUnit_of_row row wf)).trans drives, congrArg unitLen unit, congrArg unitBytes unit⟩

/-- Settles O49: each row's code and string are those of the suffix at its place in the group. -/
theorem suffixRowsDrivePorts : Obligations.SuffixRowsDrivePorts := by
  intro w s i code u listed wf
  obtain ⟨row, drives, shows⟩ : encode i = .frame .suffix w ∧
      suffixCode (suffixAt (rowIndex i + 1)) = code ∧ suffixString (suffixAt (rowIndex i + 1)) = u := by
    simp only [List.mem_cons, List.not_mem_nil, or_false, Prod.mk.injEq] at listed
    rcases listed with ⟨rfl, rfl, rfl⟩ | ⟨rfl, rfl, rfl⟩ | ⟨rfl, rfl, rfl⟩ <;> exact ⟨rfl, rfl, rfl⟩
  have unit : decodeUnit w = baseUnitString (baseUnit w) ++ u := by
    rw [decodeUnit, unitString, suffixSel_of_row row wf, shows]
  exact ⟨decoderPorts w, tableRowsAgreeWithChains i _ w s row, rfl,
    (congrArg suffixCode (suffixSel_of_row row wf)).trans drives, congrArg unitLen unit, congrArg unitBytes unit⟩

end Sys2Proof.Proofs
end

section
/-! The bits the decoder reads (R63, R135, R157): every chain reads its own bits of the frame only, so frames that agree
on these bits show the same. -/

namespace Sys2Proof.Proofs

open Sys2Proof.Machine Sys2Proof.Laws

variable {w x mask : FrameWord}

/-- The bits the value half reads: F[0] bits 0x47, all of F[1] and F[2], F[4] bit 0x02 and F[5] bits 0xF0 (R135). -/
def valueMask : FrameWord := 0x0000F00200FFFF47#64

/-- The bits the unit half reads: F[3] bits 0x18, F[5] bit 0x04, F[6] bits 0xDF and F[7] bits 0x3D (R157). -/
def unitMask : FrameWord := 0x3DDF040018000000#64

/-- Frames that agree on a mask agree on every byte test within it. -/
theorem frameByte_and_of_agree (agree : w &&& mask = x &&& mask) (k : Nat) (m : Byte)
    (within : frameByte mask k &&& m = m) : frameByte w k &&& m = frameByte x k &&& m := by
  have bytes := congrArg (frameByte · k &&& m) agree
  simpa only [frameByte_and, BitVec.and_assoc, within] using bytes

theorem frameByte_of_agree (agree : w &&& mask = x &&& mask) (k : Nat)
    (whole : frameByte mask k = BitVec.allOnes 8) : frameByte w k = frameByte x k := by
  have tests := frameByte_and_of_agree agree k (BitVec.allOnes 8) (by rw [whole, BitVec.and_self])
  simpa only [BitVec.and_allOnes] using tests

theorem agree_of_or_eq {unread : FrameWord} (agree : w ||| unread = x ||| unread) (disjoint : unread &&& mask = 0#64) :
    w &&& mask = x &&& mask := by
  have masked := congrArg (· &&& mask) agree
  simpa only [BitVec.and_or_distrib_right, disjoint, BitVec.or_zero] using masked

/-! ## The value half -/

section
variable (agree : w &&& valueMask = x &&& valueMask)
include agree

theorem digitBytes_of_agree : frameByte w 1 = frameByte x 1 ∧ frameByte w 2 = frameByte x 2 :=
  ⟨frameByte_of_agree agree 1 (by decide), frameByte_of_agree agree 2 (by decide)⟩

theorem overload_of_agree : overload w = overload x := by
  rw [overload, overload, (digitBytes_of_agree agree).1, (digitBytes_of_agree agree).2]

theorem magnitude_of_agree : magnitude w = magnitude x := by
  rw [magnitude_eq_bytes, magnitude_eq_bytes, (digitBytes_of_agree agree).1, (digitBytes_of_agree agree).2]

theorem divSel_of_agree : divSel w = divSel x := by
  have test := frameByte_and_of_agree agree
  simp only [divSel, bitSet, test 0 0x01#8 (by decide), test 0 0x02#8 (by decide), test 0 0x04#8 (by decide)]

theorem neg_of_agree : neg w = neg x := by
  simp only [neg, frameByte_and_of_agree agree 0 0x40#8 (by decide)]

theorem prefixSel_of_agree : prefixSel w = prefixSel x := by
  have test := frameByte_and_of_agree agree
  simp only [prefixSel, bitSet, test 4 0x02#8 (by decide), test 5 0x10#8 (by decide), test 5 0x20#8 (by decide),
    test 5 0x40#8 (by decide), test 5 0x80#8 (by decide)]

theorem decodeValue_of_agree : decodeValue w = decodeValue x := by
  rw [decodeValue, decodeValue, scaledValue, scaledValue, overload_of_agree agree, magnitude_of_agree agree,
    divSel_of_agree agree, neg_of_agree agree, prefixSel_of_agree agree]

end

/-! ## The unit half -/

section
variable (agree : w &&& unitMask = x &&& unitMask)
include agree

theorem baseUnit_of_agree : baseUnit w = baseUnit x := by
  have test := frameByte_and_of_agree agree
  simp only [baseUnit, bitSet, test 5 0x04#8 (by decide), test 6 0x80#8 (by decide), test 6 0x40#8 (by decide),
    test 7 0x3D#8 (by decide), test 6 0x01#8 (by decide), test 6 0x02#8 (by decide), test 6 0x04#8 (by decide),
    test 6 0x08#8 (by decide), test 6 0x10#8 (by decide)]

theorem suffixSel_of_agree : suffixSel w = suffixSel x := by
  have test := frameByte_and_of_agree agree
  simp only [suffixSel, bitSet, test 3 0x08#8 (by decide), test 3 0x10#8 (by decide)]

theorem decodeUnit_of_agree : decodeUnit w = decodeUnit x := by
  rw [decodeUnit, decodeUnit, baseUnit_of_agree agree, suffixSel_of_agree agree]

end

/-! ## All ports -/

theorem decoderPorts_of_agree (value : w &&& valueMask = x &&& valueMask) (unit : w &&& unitMask = x &&& unitMask) :
    { decoderPorts w with frameIn := x } = decoderPorts x := by
  simp only [decoderPorts, magnitude_of_agree value, decodeValue_of_agree value, overload_of_agree value,
    divSel_of_agree value, neg_of_agree value, prefixSel_of_agree value, baseUnit_of_agree unit,
    suffixSel_of_agree unit, decodeUnit_of_agree unit]

/-- Settles O42: both halves of the decoder read bits outside the mask only. -/
theorem unreadBitsChangeNoPort : Obligations.UnreadBitsChangeNoPort :=
  ⟨by decide, fun _ _ agree =>
    decoderPorts_of_agree (agree_of_or_eq agree (by decide)) (agree_of_or_eq agree (by decide))⟩

end Sys2Proof.Proofs
end

section
/-! Turns that pass and turns that start or end a call (R100–R108, R204–R207): a host that cannot move issues nothing, a
FrameReader that waits changes nothing, and NEXT_FRAME, End and Fail each set their own registers and list of hosts. -/

namespace Sys2Proof.Proofs

open Sys2Proof.Machine Sys2Proof.Laws

variable {s : State} {rest : List Turn}

/-! ## Turns that pass -/

theorem canMove_eq_false_iff (h : HostId) (s : State) : canMove h s = false ↔ h ∈ s.waiting ∨ h ∈ s.halted := by
  rw [← Bool.not_eq_true, canMove_iff, not_and_or, not_not, not_not]

theorem step_command_passes {h : HostId} {c : CmdWord} (sch : s.schedule = .command h c :: rest)
    (stuck : canMove h s = false) : step s = .next { s with schedule := rest } := by
  simp [step, nextAction, sch, stuck]

/-- Settles O5: a host that is blocked or stopped cannot move. -/
theorem blockedOrStoppedHostIssuesNothing : Obligations.BlockedOrStoppedHostIssuesNothing :=
  fun s h _ _ sch stuck => step_command_passes sch ((canMove_eq_false_iff h s).2 stuck)

theorem step_reader_waits (sch : s.schedule = .reader :: rest) (wait : s.rdStatus ≠ .busy ∨ s.stream = []) :
    step s = .next { s with schedule := rest } := by
  have turn : step s = readerStep { s with schedule := rest } := by simp [step, nextAction, sch]
  exact turn.trans (readerStep_waits _ wait)

/-- Settles O6, by induction on the turns: each one passes, and the FrameReader waits as before. -/
theorem readerWaitsForEvents : Obligations.ReaderWaitsForEvents := by
  intro s n wait sch
  induction n generalizing s with
  | zero =>
    have idle : s.schedule = [] := sch
    rw [← idle, runSteps]
  | succ n ih => exact (runSteps_succ n s _ (step_reader_waits sch wait.symm)).trans (ih _ wait rfl)

/-! ## The start and the failed ends of a call -/

/-- Settles O13: outside a call, exec is startCall. -/
theorem nextFrameStartsCall : Obligations.NextFrameStartsCall :=
  fun _ s idle => ⟨insertHost s.issuer s.waiting, if_neg idle, fun k => mem_insertHost s.issuer k s.waiting⟩

/-- Settles O16: the turn takes End or Fail, and each of them is endCall with its own status and response. -/
theorem endAndFailEndTheCall : Obligations.EndAndFailEndTheCall := by
  intro s es rest h sch busy owner
  refine ⟨removeHost h s.waiting, fun k => mem_removeHost h k s.waiting, fun ended => ?_, fun failed => ?_⟩
  · exact (step_reader_busy sch busy ended).trans (endCall_owner .shortRead .shortReadError _ h owner)
  · exact (step_reader_busy sch busy failed).trans (endCall_owner .ioError .ioError _ h owner)

end Sys2Proof.Proofs
end

section
/-! Quotients and products with a positive finite number (R11, R124, R127): fdiv and fmul keep the sign and round once,
and roundings are in the order of the numbers rounded, so that bounds of the operands give bounds of the results. -/

namespace Sys2Proof.Proofs

open Sys2Proof.Machine Sys2Proof.Laws

/-! ## One rounding -/

/-- A pattern of a positive finite number. -/
abbrev IsScale (c : Binary64) : Prop := 0 < c.toNat ∧ c.toNat < infBits

section
variable {b : Nat} {s : Bool} {c : Binary64}

theorem eq_signed_toNat (scale : IsScale c) : c = signed false c.toNat :=
  signed_eq_of_toNat _ _ _ (scale.2.trans (by decide)) (by simp)

theorem isFinite_signed (fin : b < infBits) : IsFinite (signed s b) :=
  (isFinite_signed_iff s b (fin.trans (by decide))).2 fin

theorem isNaN_of_isFinite {v : Binary64} (finite : IsFinite v) : isNaN v = false :=
  decide_eq_false fun ⟨top, _⟩ => finite.ne top

theorem isInf_of_isFinite {v : Binary64} (finite : IsFinite v) : isInf v = false :=
  decide_eq_false fun ⟨top, _⟩ => finite.ne top

theorem isZero_signed (pos : 0 < b) (lt : b < 2 ^ 63) : isZero (signed s b) = false := by
  simp only [isZero, expField_signed s b lt, fracField_signed s b lt, decide_eq_false_iff_not]
  omega

theorem isFinite_scale (scale : IsScale c) : IsFinite c :=
  eq_signed_toNat scale ▸ isFinite_signed scale.2

theorem isNaN_scale (scale : IsScale c) : isNaN c = false := isNaN_of_isFinite (isFinite_scale scale)

theorem isInf_scale (scale : IsScale c) : isInf c = false := isInf_of_isFinite (isFinite_scale scale)

theorem isZero_scale (scale : IsScale c) : isZero c = false := by
  rw [eq_signed_toNat scale, isZero_signed scale.1 (scale.2.trans (by decide))]

theorem signBit_scale (scale : IsScale c) : signBit c = false := by
  rw [eq_signed_toNat scale, signBit_signed _ _ (scale.2.trans (by decide))]

theorem scaledMagnitude_scale (scale : IsScale c) : scaledMagnitude c = bitsMagnitude c.toNat := by
  rw [eq_signed_toNat scale, scaledMagnitude_signed _ _ (scale.2.trans (by decide)), ← eq_signed_toNat scale]

theorem fdiv_signed (fin : b < infBits) (scale : IsScale c) :
    fdiv (signed s b) c = roundNearest s (bitsMagnitude b) (bitsMagnitude c.toNat) := by
  have lt : b < 2 ^ 63 := fin.trans (by decide)
  have finite : IsFinite (signed s b) := isFinite_signed fin
  simp [fdiv, isNaN_of_isFinite finite, isInf_of_isFinite finite, isNaN_scale scale, isInf_scale scale,
    isZero_scale scale, signBit_signed s b lt, signBit_scale scale, scaledMagnitude_signed s b lt,
    scaledMagnitude_scale scale]

theorem fmul_signed (fin : b < infBits) (scale : IsScale c) :
    fmul (signed s b) c =
      roundNearest s (bitsMagnitude b * bitsMagnitude c.toNat) (scaleUnit * scaleUnit) := by
  have lt : b < 2 ^ 63 := fin.trans (by decide)
  have finite : IsFinite (signed s b) := isFinite_signed fin
  simp [fmul, isNaN_of_isFinite finite, isInf_of_isFinite finite, isNaN_scale scale, isInf_scale scale,
    isZero_scale scale, signBit_signed s b lt, signBit_scale scale, scaledMagnitude_signed s b lt,
    scaledMagnitude_scale scale]

end

/-! ## Roundings are in the order of the numbers rounded -/

theorem roundHalfEven_mono {m n : Nat} (d : Nat) (le : m ≤ n) : roundHalfEven m d ≤ roundHalfEven n d := by
  have quotients : m / d ≤ n / d := Nat.div_le_div_right le
  rcases quotients.lt_or_eq with lt | eq
  · have below := roundHalfEven_mem m d
    have above := roundHalfEven_mem n d
    omega
  · have remainders : m % d ≤ n % d := by
      have split_m := Nat.div_add_mod m d
      have split_n := Nat.div_add_mod n d
      rw [← eq] at split_n
      omega
    rw [roundHalfEven, roundHalfEven, ← eq]
    split_ifs <;> omega

theorem roundShift_mono {m n : Nat} (den : Nat) (le : m ≤ n) : roundShift m den ≤ roundShift n den := by
  have quotients : m * quantaPerOne / den ≤ n * quantaPerOne / den := by gcongr
  rw [roundShift, roundShift, quantumShift, quantumShift, Nat.log2_eq_log_two, Nat.log2_eq_log_two]
  exact Nat.sub_le_sub_right (Nat.log_mono_right quotients) 52

/-- Of two numbers with the same quantum, the significands are in their order; a larger quantum starts where the
significands of the smaller one end. -/
theorem roundBits_mono {m n : Nat} (den : Nat) (le : m ≤ n) : roundBits m den ≤ roundBits n den := by
  rw [roundBits_eq, roundBits_eq]
  refine min_le_min_right _ ?_
  rcases (roundShift_mono den le).lt_or_eq with finer | same
  · have below := roundSignificand_le m den
    have above := roundSignificand_full n den
    omega
  · have significands : roundSignificand m den ≤ roundSignificand n den := by
      rw [roundSignificand, roundSignificand, same]
      exact roundHalfEven_mono _ (Nat.mul_le_mul_right _ le)
    omega

theorem roundHalfEven_mul_left {a : Nat} (n d : Nat) (pos : 0 < a) :
    roundHalfEven (a * n) (a * d) = roundHalfEven n d := by
  have lt : 2 * (a * (n % d)) < a * d ↔ 2 * (n % d) < d := by
    rw [Nat.mul_left_comm, Nat.mul_lt_mul_left pos]
  have eq : 2 * (a * (n % d)) = a * d ↔ 2 * (n % d) = d := by
    rw [Nat.mul_left_comm, Nat.mul_right_inj pos.ne']
  simp only [roundHalfEven, Nat.mul_div_mul_left _ _ pos, Nat.mul_mod_mul_left, lt, eq]

theorem roundBits_mul_left {a : Nat} (num den : Nat) (pos : 0 < a) :
    roundBits (a * num) (a * den) = roundBits num den := by
  have shift : roundShift (a * num) (a * den) = roundShift num den := by
    rw [roundShift, roundShift, quantumShift, quantumShift, Nat.mul_assoc, Nat.mul_div_mul_left _ _ pos]
  rw [roundBits_eq, roundBits_eq, roundSignificand, roundSignificand, shift, Nat.mul_assoc, Nat.mul_assoc,
    roundHalfEven_mul_left _ _ pos]

theorem roundBits_le_roundBits {m n d e : Nat} (posD : 0 < d) (posE : 0 < e) (le : m * e ≤ n * d) :
    roundBits m d ≤ roundBits n e :=
  calc roundBits m d = roundBits (e * m) (e * d) := (roundBits_mul_left m d posE).symm
    _ ≤ roundBits (d * n) (e * d) := roundBits_mono _ (by rwa [Nat.mul_comm e, Nat.mul_comm d])
    _ = roundBits n e := by rw [Nat.mul_comm e, roundBits_mul_left n e posD]

theorem roundBits_zero (den : Nat) : roundBits 0 den = 0 := by
  rcases den.eq_zero_or_pos with rfl | pos
  · simp [roundBits, quantumShift, roundHalfEven]
  · simp [roundBits, quantumShift, roundHalfEven, pos]

/-! ## Bounds of a pattern -/

/-- The pattern has sign s and its low bits, which order the magnitudes (R45), are from lo to hi. -/
def Within (lo hi : Nat) (s : Bool) (v : Binary64) : Prop := ∃ b, lo ≤ b ∧ b ≤ hi ∧ v = signed s b

section
variable {lo hi lo' hi' : Nat} {s : Bool} {c v : Binary64}

theorem Within.mono (within : Within lo hi s v) (le : lo' ≤ lo) (ge : hi ≤ hi') : Within lo' hi' s v := by
  obtain ⟨b, lower, upper, rfl⟩ := within
  exact ⟨b, le.trans lower, upper.trans ge, rfl⟩

theorem bitsMagnitude_pos (pos : 0 < lo) : 0 < bitsMagnitude lo :=
  (Nat.zero_le _).trans_lt (bitsMagnitude_strictMono pos)

/-- The quotient by a scale between two others is between the quotients by these. -/
theorem within_fdiv {small large : Binary64} (within : Within lo hi s v) (fin : hi < infBits) (scale : IsScale c)
    (pos : 0 < small.toNat) (ge : small.toNat ≤ c.toNat) (le : c.toNat ≤ large.toNat) :
    Within (roundBits (bitsMagnitude lo) (bitsMagnitude large.toNat))
      (roundBits (bitsMagnitude hi) (bitsMagnitude small.toNat)) s (fdiv v c) := by
  obtain ⟨b, lower, upper, rfl⟩ := within
  have mono := bitsMagnitude_strictMono.monotone
  refine ⟨roundBits (bitsMagnitude b) (bitsMagnitude c.toNat), ?_, ?_, fdiv_signed (upper.trans_lt fin) scale⟩
  · exact roundBits_le_roundBits (bitsMagnitude_pos (scale.1.trans_le le)) (bitsMagnitude_pos scale.1)
      (Nat.mul_le_mul (mono lower) (mono le))
  · exact roundBits_le_roundBits (bitsMagnitude_pos scale.1) (bitsMagnitude_pos pos)
      (Nat.mul_le_mul (mono upper) (mono ge))

/-- The product with a scale between two others is between the products with these. -/
theorem within_fmul {small large : Binary64} (within : Within lo hi s v) (fin : hi < infBits) (scale : IsScale c)
    (ge : small.toNat ≤ c.toNat) (le : c.toNat ≤ large.toNat) :
    Within (roundBits (bitsMagnitude lo * bitsMagnitude small.toNat) (scaleUnit * scaleUnit))
      (roundBits (bitsMagnitude hi * bitsMagnitude large.toNat) (scaleUnit * scaleUnit)) s (fmul v c) := by
  obtain ⟨b, lower, upper, rfl⟩ := within
  have mono := bitsMagnitude_strictMono.monotone
  refine ⟨roundBits (bitsMagnitude b * bitsMagnitude c.toNat) (scaleUnit * scaleUnit), ?_, ?_,
    fmul_signed (upper.trans_lt fin) scale⟩
  · exact roundBits_mono _ (Nat.mul_le_mul (mono lower) (mono ge))
  · exact roundBits_mono _ (Nat.mul_le_mul (mono upper) (mono le))

end

theorem within_f64 {small m large : Nat} (ge : small ≤ m) (le : m ≤ large) :
    Within (roundBits small 1) (roundBits large 1) false (f64 m) :=
  ⟨roundBits m 1, roundBits_mono 1 ge, roundBits_mono 1 le,
    by rw [f64, Int.natAbs_natCast, decide_eq_false (Int.natCast_nonneg m).not_gt, roundNearest]⟩

theorem lowBits_signed (s : Bool) (b : Nat) (lt : b < 2 ^ 63) : lowBits (signed s b) = b := by
  rw [lowBits, BitVec.toNat_setWidth, toNat_signed s b lt, Nat.mul_add_mod_self_right, Nat.mod_eq_of_lt lt]

end Sys2Proof.Proofs
end

section
/-! The value half of the decoder (R120–R136): every stage but the sign stage is a quotient, a product or nothing, so
that bounds pass from the magnitude to the value; a change of one bit of F[0] reaches one stage only. -/

namespace Sys2Proof.Proofs

open Sys2Proof.Machine Sys2Proof.Laws

/-! ## The frame's bytes and the stages -/

section
variable {w x : FrameWord}

theorem divSel_of_byte (same : frameByte w 0 = frameByte x 0) : divSel w = divSel x := by
  simp only [divSel, bitSet, same]

theorem neg_of_byte (same : frameByte w 0 = frameByte x 0) : neg w = neg x := by
  rw [neg, neg, same]

theorem prefixSel_of_bytes (same4 : frameByte w 4 = frameByte x 4) (same5 : frameByte w 5 = frameByte x 5) :
    prefixSel w = prefixSel x := by
  simp only [prefixSel, bitSet, same4, same5]

theorem overload_eq_true_iff (w : FrameWord) :
    overload w = true ↔ frameByte w 1 = 0x4C#8 ∧ frameByte w 2 = 0x4F#8 := by
  rw [overload, decide_eq_true_iff]

theorem decodeValue_of_overload (sentinel : overload w = true) : decodeValue w = posInf := if_pos sentinel

theorem decodeValue_of_plain (plain : overload w = false) :
    decodeValue w = multiplyStage (prefixSel w) (signStage (neg w) (divideStage (divSel w) (f64 (magnitude w)))) := by
  rw [decodeValue, plain]
  rfl

/-- The frames agree on the bytes that the value half reads, but for F[0]. -/
def SameButFirst (w x : FrameWord) : Prop := ∀ k ∈ [1, 2, 4, 5], frameByte w k = frameByte x k

theorem sameButFirst_xor {bit : FrameWord} (first : ∀ k ∈ [1, 2, 4, 5], frameByte bit k = 0#8) :
    SameButFirst (w ^^^ bit) w :=
  fun k read => by rw [frameByte_xor, first k read, BitVec.xor_zero]

theorem sameButFirst_or {bit : FrameWord} (first : ∀ k ∈ [1, 2, 4, 5], frameByte bit k = 0#8) :
    SameButFirst (w ||| bit) w :=
  fun k read => by rw [frameByte_or, first k read, BitVec.or_zero]

/-- Of what the value half reads, the frames differ in F[0] only: their divide and sign stages alone may differ. -/
theorem decodeValue_of_sameButFirst (same : SameButFirst x w) (plain : overload w = false) :
    decodeValue x = multiplyStage (prefixSel w) (signStage (neg x) (divideStage (divSel x) (f64 (magnitude w)))) := by
  have one := same 1 (by decide)
  have two := same 2 (by decide)
  have overload_eq : overload x = overload w := by rw [overload, overload, one, two]
  have magnitude_eq : magnitude x = magnitude w := by rw [magnitude_eq_bytes, magnitude_eq_bytes, one, two]
  rw [decodeValue_of_plain (overload_eq.trans plain), magnitude_eq,
    prefixSel_of_bytes (same 4 (by decide)) (same 5 (by decide))]

/-! ## Divisor bits on a frame with none -/

/-- Where no divisor bit of w is set, the divisor bits of w ||| x are those of x. -/
theorem divSel_or_of_clear (clear : frameByte w 0 &&& 0x07#8 = 0#8) : divSel (w ||| x) = divSel x := by
  have test (m : Byte) (within : 0x07#8 &&& m = m) : frameByte (w ||| x) 0 &&& m = frameByte x 0 &&& m := by
    have off : frameByte w 0 &&& m = 0#8 := by rw [← within, ← BitVec.and_assoc, clear, BitVec.zero_and]
    rw [frameByte_or, BitVec.and_or_distrib_right, off, BitVec.zero_or]
  simp only [divSel, bitSet, test 0x01#8 (by decide), test 0x02#8 (by decide), test 0x04#8 (by decide)]

theorem divSel_of_clear (clear : frameByte w 0 &&& 0x07#8 = 0#8) : divSel w = .none := by
  rw [← BitVec.or_zero (x := w), divSel_or_of_clear clear]
  decide

theorem neg_or (other : frameByte x 0 &&& 0x40#8 = 0#8) : neg (w ||| x) = neg w := by
  rw [neg, neg, frameByte_or, BitVec.and_or_distrib_right, other, BitVec.or_zero]

end

/-! ## The stages that divide and multiply -/

@[simp] theorem signStage_false (v : Binary64) : signStage false v = v := if_neg Bool.false_ne_true

@[simp] theorem signStage_true (v : Binary64) : signStage true v = fneg v := if_pos rfl

theorem divideStage_cases (d : DivSel) : (∀ v, divideStage d v = v) ∨
    ∃ c, IsScale c ∧ const10.toNat ≤ c.toNat ∧ c.toNat ≤ const1000.toNat ∧ ∀ v, divideStage d v = fdiv v c := by
  cases d with
  | none => exact .inl fun _ => rfl
  | div10 => exact .inr ⟨const10, by decide, by decide, by decide, fun _ => rfl⟩
  | div100 => exact .inr ⟨const100, by decide, by decide, by decide, fun _ => rfl⟩
  | div1000 => exact .inr ⟨const1000, by decide, by decide, by decide, fun _ => rfl⟩

theorem multiplyStage_cases (p : PrefixSel) : (∀ v, multiplyStage p v = v) ∨
    ∃ c, IsScale c ∧ constNano.toNat ≤ c.toNat ∧ c.toNat ≤ constMega.toNat ∧ ∀ v, multiplyStage p v = fmul v c := by
  cases p with
  | none => exact .inl fun _ => rfl
  | nano => exact .inr ⟨constNano, by decide, by decide, by decide, fun _ => rfl⟩
  | mega => exact .inr ⟨constMega, by decide, by decide, by decide, fun _ => rfl⟩
  | kilo => exact .inr ⟨constKilo, by decide, by decide, by decide, fun _ => rfl⟩
  | milli => exact .inr ⟨constMilli, by decide, by decide, by decide, fun _ => rfl⟩
  | micro => exact .inr ⟨constMicro, by decide, by decide, by decide, fun _ => rfl⟩

/-! ## Bounds that the stages keep -/

section
variable {lo hi lo' hi' : Nat} {s : Bool} {v : Binary64}

theorem within_signStage (n : Bool) (within : Within lo hi false v) (fin : hi < infBits) :
    Within lo hi n (signStage n v) := by
  cases n
  · exact within
  · obtain ⟨b, lower, upper, rfl⟩ := within
    exact ⟨b, lower, upper, fneg_signed false b ((upper.trans_lt fin).trans (by decide))⟩

/-- The divide stage keeps to lo' and hi' where 1000 takes lo to lo' or more and 10 takes hi to hi' or less. -/
theorem within_divideStage (d : DivSel) (within : Within lo hi s v) (fin : hi < infBits) (le : lo' ≤ lo)
    (ge : hi ≤ hi') (lower : lo' ≤ roundBits (bitsMagnitude lo) (bitsMagnitude const1000.toNat))
    (upper : roundBits (bitsMagnitude hi) (bitsMagnitude const10.toNat) ≤ hi') :
    Within lo' hi' s (divideStage d v) := by
  rcases divideStage_cases d with keeps | ⟨c, scale, small, large, divides⟩
  · rw [keeps]
    exact within.mono le ge
  · rw [divides]
    exact (within_fdiv within fin scale (by decide) small large).mono lower upper

/-- The multiply stage keeps to lo' and hi' where C_NANO takes lo to lo' or more and C_MEGA takes hi to hi' or less. -/
theorem within_multiplyStage (p : PrefixSel) (within : Within lo hi s v) (fin : hi < infBits) (le : lo' ≤ lo)
    (ge : hi ≤ hi')
    (lower : lo' ≤ roundBits (bitsMagnitude lo * bitsMagnitude constNano.toNat) (scaleUnit * scaleUnit))
    (upper : roundBits (bitsMagnitude hi * bitsMagnitude constMega.toNat) (scaleUnit * scaleUnit) ≤ hi') :
    Within lo' hi' s (multiplyStage p v) := by
  rcases multiplyStage_cases p with keeps | ⟨c, scale, small, large, multiplies⟩
  · rw [keeps]
    exact within.mono le ge
  · rw [multiplies]
    exact (within_fmul within fin scale small large).mono lower upper

end

/-! ## The range of the values -/

/-- Every stage takes a zero to a zero of the same sign (R130). -/
theorem within_zero {w : FrameWord} (plain : overload w = false) (zero : magnitude w = 0) :
    Within 0 0 (neg w) (decodeValue w) := by
  have integer : Within 0 0 false (f64 (magnitude w)) :=
    (within_f64 zero.ge zero.le).mono (Nat.zero_le _) (roundBits_zero 1).le
  have divided := within_divideStage (divSel w) integer (by decide) le_rfl le_rfl (Nat.zero_le _)
    (roundBits_zero _).le
  have withSign := within_signStage (neg w) divided (by decide)
  rw [decodeValue_of_plain plain]
  refine within_multiplyStage (prefixSel w) withSign (by decide) le_rfl le_rfl (Nat.zero_le _) ?_
  rw [show bitsMagnitude 0 = 0 from rfl, Nat.zero_mul, roundBits_zero]

/-- A magnitude from 1.0 (0x3FF0000000000000) to 16665.0 (0x40D0464000000000) is divided to no less than C_MILLI, and
the product is at least C_MILLI * C_NANO and at most 16665.0 * C_MEGA (R129). -/
theorem within_range {w : FrameWord} (plain : overload w = false) (nonzero : magnitude w ≠ 0) :
    Within 0x3D719799812DEA12 0x420F0A7DC2000000 (neg w) (decodeValue w) := by
  obtain ⟨-, bound, -⟩ := magnitudeStaysInRange w
  have integer : Within 0x3FF0000000000000 0x40D0464000000000 false (f64 (magnitude w)) :=
    (within_f64 (Nat.pos_of_ne_zero nonzero) bound).mono (by decide +kernel) (by decide +kernel)
  have divided : Within constMilli.toNat 0x40D0464000000000 false (divideStage (divSel w) (f64 (magnitude w))) :=
    within_divideStage _ integer (by decide) (by decide) le_rfl (by decide +kernel) (by decide +kernel)
  rw [decodeValue_of_plain plain]
  exact within_multiplyStage _ (within_signStage _ divided (by decide)) (by decide) (by decide) (by decide)
    (by decide +kernel) (by decide +kernel)

/-- Settles O32: a value with low bits in the range has the exponent field of a normal number. -/
theorem valueIsZeroOrNormalInRange : Obligations.ValueIsZeroOrNormalInRange := by
  intro w plain
  by_cases zero : magnitude w = 0
  · obtain ⟨b, -, upper, e⟩ := within_zero plain zero
    rw [e, Nat.le_zero.1 upper]
    exact .inl (lowBits_signed _ 0 (by decide))
  · obtain ⟨b, lower, upper, e⟩ := within_range plain zero
    have lt : b < 2 ^ 63 := by omega
    rw [e, lowBits_signed _ b lt, expField_signed _ b lt]
    omega

theorem overload_of_magnitude_eq_zero {w : FrameWord} (zero : magnitude w = 0) : overload w = false := by
  rw [← Bool.not_eq_true, overload_eq_true_iff]
  rintro ⟨one, two⟩
  rw [magnitude_eq_bytes, one, two] at zero
  cases zero

/-- Settles O33: the magnitude of the sentinel is not zero, and no stage takes a zero to another value. -/
theorem zeroMagnitudeKeepsItsSign : Obligations.ZeroMagnitudeKeepsItsSign := by
  intro w zero
  obtain ⟨b, -, upper, e⟩ := within_zero (overload_of_magnitude_eq_zero zero) zero
  rw [e, Nat.le_zero.1 upper]
  cases neg w <;> decide

/-! ## The sign bit, the divisor bits and the other bits -/

theorem signStage_not (n : Bool) (v : Binary64) : signStage (!n) v = fneg (signStage n v) := by
  cases n <;> simp [fneg_fneg]

theorem isNaN_signStage (n : Bool) {v : Binary64} (number : isNaN v = false) : isNaN (signStage n v) = false := by
  cases n <;> simp [isNaN_fneg, number]

theorem isNaN_divideStage (d : DivSel) {v : Binary64} (number : isNaN v = false) :
    isNaN (divideStage d v) = false := by
  rcases divideStage_cases d with keeps | ⟨c, scale, -, -, divides⟩
  · rw [keeps, number]
  · rw [divides, isNaN_fdiv v c number (isNaN_scale scale) (isInf_scale scale) (isZero_scale scale)]

theorem multiplyStage_fneg (p : PrefixSel) {v : Binary64} (number : isNaN v = false) :
    multiplyStage p (fneg v) = fneg (multiplyStage p v) := by
  rcases multiplyStage_cases p with keeps | ⟨c, scale, -, -, multiplies⟩
  · rw [keeps, keeps]
  · rw [multiplies, multiplies, fmul_fneg v c number (isNaN_scale scale) (isInf_scale scale) (isZero_scale scale)]

theorem fdiv_signStage (n : Bool) {v c : Binary64} (number : isNaN v = false) (scale : IsScale c) :
    fdiv (signStage n v) c = signStage n (fdiv v c) := by
  cases n
  · simp
  · simp [fdiv_fneg v c number (isNaN_scale scale) (isInf_scale scale) (isZero_scale scale)]

theorem divSel_xor_sign (w : FrameWord) : divSel (w ^^^ 0x40#64) = divSel w := by
  have byte : frameByte 0x40#64 0 = 0x40#8 := by decide
  have test : ∀ m ∈ [0x01#8, 0x02#8, 0x04#8], ∀ b : Byte, (b ^^^ 0x40#8) &&& m = b &&& m := by decide
  simp only [divSel, bitSet, frameByte_xor, byte, test 0x01#8 (by decide), test 0x02#8 (by decide),
    test 0x04#8 (by decide)]

theorem neg_xor_sign (w : FrameWord) : neg (w ^^^ 0x40#64) = !neg w := by
  have byte : frameByte 0x40#64 0 = 0x40#8 := by decide
  have inverted : ∀ b : Byte, decide ((b ^^^ 0x40#8) &&& 0x40#8 ≠ 0#8) = !decide (b &&& 0x40#8 ≠ 0#8) := by decide
  rw [neg, neg, frameByte_xor, byte, inverted]

/-- Settles O34: the sign bit reaches the sign stage only, and fneg passes through the multiply stage. -/
theorem signBitNegatesTheValue : Obligations.SignBitNegatesTheValue := by
  intro w plain
  have number := isNaN_signStage (neg w) (isNaN_divideStage (divSel w) (isNaN_f64 (magnitude w)))
  rw [decodeValue_of_sameButFirst (sameButFirst_xor (by decide)) plain, divSel_xor_sign, neg_xor_sign, signStage_not,
    multiplyStage_fneg _ number, decodeValue_of_plain plain]

theorem decodeValue_of_clear {w : FrameWord} (plain : overload w = false) (clear : frameByte w 0 &&& 0x07#8 = 0#8)
    (noPrefix : prefixSel w = .none) : decodeValue w = signStage (neg w) (f64 (magnitude w)) := by
  rw [decodeValue_of_plain plain, divSel_of_clear clear, noPrefix]
  rfl

/-- Settles O35: neither the divisor bits nor the sign bit is set. -/
theorem plainFrameHasItsMagnitude : Obligations.PlainFrameHasItsMagnitude := by
  intro w plain clear noPrefix
  have test (m : Byte) (within : 0x47#8 &&& m = m) : frameByte w 0 &&& m = 0#8 := by
    rw [← within, ← BitVec.and_assoc, clear, BitVec.zero_and]
  have positive : neg w = false := by simp [neg, test 0x40#8 (by decide)]
  rw [decodeValue_of_clear plain (test 0x07#8 (by decide)) noPrefix, positive]
  rfl

/-- The divisor bit whose divisor is d, set where none is, makes the divide stage divide by d, and no other stage
reads it. -/
theorem divisorBit_reaches_divideStage {w bit : FrameWord} {d : Binary64} (clear : frameByte w 0 &&& 0x07#8 = 0#8)
    (listed : (bit, d) ∈
      [(0x01#64, 0x408F400000000000#64), (0x02#64, 0x4059000000000000#64), (0x04#64, 0x4024000000000000#64)]) :
    SameButFirst (w ||| bit) w ∧ neg (w ||| bit) = neg w ∧ IsScale d ∧
      ∀ v, divideStage (divSel (w ||| bit)) v = fdiv v d := by
  rw [divSel_or_of_clear clear]
  simp only [List.mem_cons, List.not_mem_nil, or_false, Prod.mk.injEq] at listed
  rcases listed with ⟨rfl, rfl⟩ | ⟨rfl, rfl⟩ | ⟨rfl, rfl⟩ <;>
    exact ⟨sameButFirst_or (by decide), neg_or (by decide), ⟨by decide, by decide⟩, fun _ => rfl⟩

/-- Settles O36: the bit reaches the divide stage only, and the sign passes through fdiv. -/
theorem divisorBitDivides : Obligations.DivisorBitDivides := by
  intro w bit d plain clear listed
  obtain ⟨same, neg_eq, scale, divides⟩ := divisorBit_reaches_divideStage clear listed
  have value : decodeValue (w ||| bit) =
      multiplyStage (prefixSel w) (fdiv (signStage (neg w) (f64 (magnitude w))) d) := by
    rw [decodeValue_of_sameButFirst same plain, neg_eq, divides, fdiv_signStage _ (isNaN_f64 _) scale]
  refine ⟨value, fun noPrefix => ?_⟩
  rw [value, decodeValue_of_clear plain clear noPrefix, noPrefix]
  rfl

/-- Settles O37: the mask is that of the bits the value half reads. -/
theorem valueReadsOnlyItsBits : Obligations.ValueReadsOnlyItsBits :=
  fun _ _ agree => decodeValue_of_agree agree

/-! ## The sentinel, the scale constants and the response -/

/-- Settles O27: the value is chosen by the sentinel's test, which no selector reads. -/
theorem sentinelGivesPlusInfinity : Obligations.SentinelGivesPlusInfinity := by
  refine fun w => ⟨?_, fun one two => ?_, fun x => ⟨fun same => ⟨?_, ?_⟩, fun same4 same5 => ?_⟩⟩
  · have bit : ∀ b : Bool, BitVec.ofBool b = 1#1 ↔ b = true := by decide
    exact (bit (overload w)).trans (overload_eq_true_iff w)
  · have infinite := decodeValue_of_overload ((overload_eq_true_iff w).2 ⟨one, two⟩)
    exact ⟨infinite, infinite⟩
  · exact congrArg divSelCode (divSel_of_byte same.symm)
  · exact congrArg BitVec.ofBool (neg_of_byte same.symm)
  · exact congrArg prefixSelCode (prefixSel_of_bytes same4.symm same5.symm)

/-- Settles O31, by evaluation of the model's own rounding at each literal. -/
theorem scaleConstantsAreNearest : Obligations.ScaleConstantsAreNearest := by
  unfold Obligations.ScaleConstantsAreNearest
  decide +kernel

/-- Settles O21: with a frame at hand, both forms respond its value. -/
theorem decodeValueRespondsValue : Obligations.DecodeValueRespondsValue :=
  fun _ _ s => ⟨fun held => congrArg (decodeValueOf · s) held, rfl⟩

end Sys2Proof.Proofs
end

section
/-! The unit half of the decoder (R150–R158): a unit string is a base string and a suffix string, so its UTF-8 form, and
the length of that form, is made of theirs. -/

namespace Sys2Proof.Proofs

open Sys2Proof.Machine Sys2Proof.Laws

/-! ## The unit of a frame -/

theorem baseUnitString_baseUnit (w : FrameWord) :
    baseUnitString (baseUnit w) =
      if bitSet w 5 0x04#8 then ['V', 'd', 'i', 'o', 'd', 'e'] else if bitSet w 6 0x80#8 then ['V']
      else if bitSet w 6 0x40#8 then ['A'] else if frameByte w 7 &&& 0x3D#8 = 0x3D#8 then ['\u03A9']
      else if bitSet w 6 0x01#8 then ['\u00B0', 'F'] else if bitSet w 6 0x02#8 then ['\u00B0', 'C']
      else if bitSet w 6 0x04#8 then ['F'] else if bitSet w 6 0x08#8 then ['H', 'z']
      else if bitSet w 6 0x10#8 then ['h', 'F', 'E'] else ['u', 'n', 'k', 'n', 'o', 'w', 'n'] := by
  simp only [baseUnit, apply_ite baseUnitString]
  rfl

theorem suffixString_suffixSel (w : FrameWord) :
    suffixString (suffixSel w) =
      if bitSet w 3 0x08#8 then ['A', 'C'] else if bitSet w 3 0x10#8 then ['D', 'C'] else [] := by
  simp only [suffixSel, apply_ite suffixString]
  rfl

/-- Settles O39: the strings of the two chains are the two halves of the pseudocode. -/
theorem decodeUnitFollowsPseudocode : Obligations.DecodeUnitFollowsPseudocode := by
  intro w
  rw [decodeUnit, unitString, baseUnitString_baseUnit, suffixString_suffixSel]

/-- Settles O41: the mask is that of the bits the unit half reads. -/
theorem unitReadsOnlyItsBits : Obligations.UnitReadsOnlyItsBits :=
  fun _ _ agree => decodeUnit_of_agree agree

/-- Settles O22: with a frame at hand, both forms respond its unit. -/
theorem decodeUnitRespondsUnit : Obligations.DecodeUnitRespondsUnit :=
  fun _ _ s => ⟨fun held => congrArg (decodeUnitOf · s) held, rfl⟩

theorem unitString_none (b : BaseUnit) : unitString b .none = baseUnitString b := List.append_nil _

/-! ## The ohm -/

/-- The ohm is the chain's fourth choice: the three before it fail and its own condition holds (R150). -/
theorem baseUnit_eq_ohm_iff (w : FrameWord) :
    baseUnit w = .ohm ↔
      ¬bitSet w 5 0x04#8 ∧ ¬bitSet w 6 0x80#8 ∧ ¬bitSet w 6 0x40#8 ∧ frameByte w 7 &&& 0x3D#8 = 0x3D#8 := by
  simp only [baseUnit, ite_eq_iff, reduceCtorEq, and_false, false_or, or_false, and_true]

theorem and_C0_eq_zero_iff (b : Byte) : b &&& 0xC0#8 = 0#8 ↔ b &&& 0x80#8 = 0#8 ∧ b &&& 0x40#8 = 0#8 := by
  rw [show 0xC0#8 = 0x80#8 ||| 0x40#8 from rfl, BitVec.and_or_distrib_left, BitVec.or_eq_zero_iff]

/-- Settles O43: Vdiode is decided in F[5], and V and A are the bits 0xC0 of F[6]. -/
theorem ohmNeedsAllFiveBits : Obligations.OhmNeedsAllFiveBits := by
  refine ⟨by decide, by decide, fun w => ?_⟩
  rw [baseUnit_eq_ohm_iff, and_C0_eq_zero_iff]
  simp only [bitSet, not_not]
  tauto

/-! ## The UTF-8 form -/

theorem utf8_unitString (b : BaseUnit) (x : Suffix) :
    utf8 (unitString b x) = utf8 (baseUnitString b) ++ utf8 (suffixString x) :=
  List.flatMap_append

/-- Base strings take 1 to 7 bytes, and the extremes are taken by the listed ones alone (R151). -/
theorem length_utf8_baseUnitString (b : BaseUnit) :
    1 ≤ (utf8 (baseUnitString b)).length ∧ (utf8 (baseUnitString b)).length ≤ 7 ∧
      ((utf8 (baseUnitString b)).length = 7 → b = .unknown) ∧
      ((utf8 (baseUnitString b)).length = 1 → baseUnitString b ∈ [['V'], ['A'], ['F']]) := by
  cases b <;> decide

/-- A suffix takes 0 bytes or 2 (R153). -/
theorem length_utf8_suffixString (x : Suffix) :
    x = .none ∧ (utf8 (suffixString x)).length = 0 ∨
      x ∈ [Suffix.ac, Suffix.dc] ∧ (utf8 (suffixString x)).length = 2 := by
  cases x <;> decide

theorem utf8_baseUnitString_ne_zero (b : BaseUnit) : ∀ byte ∈ utf8 (baseUnitString b), byte ≠ 0#8 := by
  cases b <;> decide

theorem utf8_suffixString_ne_zero (x : Suffix) : ∀ byte ∈ utf8 (suffixString x), byte ≠ 0#8 := by
  cases x <;> decide

section
variable (b : BaseUnit) (x : Suffix)

theorem utf8_unitString_ne_zero : ∀ byte ∈ utf8 (unitString b x), byte ≠ 0#8 := by
  rw [utf8_unitString, List.forall_mem_append]
  exact ⟨utf8_baseUnitString_ne_zero b, utf8_suffixString_ne_zero x⟩

theorem length_utf8_unitString :
    (utf8 (unitString b x)).length = (utf8 (baseUnitString b)).length + (utf8 (suffixString x)).length := by
  rw [utf8_unitString, List.length_append]

theorem length_utf8_unitString_bounds : 1 ≤ (utf8 (unitString b x)).length ∧ (utf8 (unitString b x)).length ≤ 9 := by
  obtain ⟨pos, le, -⟩ := length_utf8_baseUnitString b
  have suffix := length_utf8_suffixString x
  rw [length_utf8_unitString]
  omega

/-- Nine bytes are the longest base string with a suffix (R154). -/
theorem length_utf8_unitString_eq_nine_iff :
    (utf8 (unitString b x)).length = 9 ↔ unitString b x ∈ ["unknownAC".toList, "unknownDC".toList] := by
  refine ⟨fun nine => ?_, fun listed => ?_⟩
  · rw [length_utf8_unitString] at nine
    obtain ⟨-, le, longest, -⟩ := length_utf8_baseUnitString b
    obtain ⟨-, zero⟩ | ⟨suffix, two⟩ := length_utf8_suffixString x
    · omega
    · have both : ∀ x ∈ [Suffix.ac, Suffix.dc], unitString .unknown x ∈ ["unknownAC".toList, "unknownDC".toList] := by
        decide
      exact longest (by omega) ▸ both x suffix
  · have lengths : ∀ u ∈ ["unknownAC".toList, "unknownDC".toList], (utf8 u).length = 9 := by decide
    exact lengths _ listed

/-- One byte is a shortest base string with no suffix (R154). -/
theorem length_utf8_unitString_eq_one_iff :
    (utf8 (unitString b x)).length = 1 ↔ unitString b x ∈ [['V'], ['A'], ['F']] := by
  refine ⟨fun one => ?_, fun listed => ?_⟩
  · rw [length_utf8_unitString] at one
    obtain ⟨pos, -, -, shortest⟩ := length_utf8_baseUnitString b
    obtain ⟨rfl, zero⟩ | ⟨-, two⟩ := length_utf8_suffixString x
    · exact unitString_none b ▸ shortest (by omega)
    · omega
  · have lengths : ∀ u ∈ [['V'], ['A'], ['F']], (utf8 u).length = 1 := by decide
    exact lengths _ listed

/-- Four bits are enough for the length, so that unit_len is the length itself. -/
theorem unitLen_unitString_toNat : (unitLen (unitString b x)).toNat = (utf8 (unitString b x)).length := by
  obtain ⟨-, le⟩ := length_utf8_unitString_bounds b x
  exact Nat.mod_eq_of_lt (by omega)

theorem unitLen_unitString_eq_iff (n : BitVec 4) :
    unitLen (unitString b x) = n ↔ (utf8 (unitString b x)).length = n.toNat := by
  rw [← BitVec.toNat_inj, unitLen_unitString_toNat]

end

/-! ## The string ports -/

/-- Settles O40: the form is that of a base string and a suffix string, packed byte by byte. -/
theorem stringPortsHoldTheUnit : Obligations.StringPortsHoldTheUnit := by
  intro w
  have length : (decoderPorts w).unitLen.toNat = (utf8 (decodeUnit w)).length := unitLen_unitString_toNat _ _
  obtain ⟨pos, le⟩ := length_utf8_unitString_bounds (baseUnit w) (suffixSel w)
  exact ⟨length, length ▸ pos, length ▸ le,
    (unitLen_unitString_eq_iff _ _ 9#4).trans (length_utf8_unitString_eq_nine_iff _ _),
    (unitLen_unitString_eq_iff _ _ 1#4).trans (length_utf8_unitString_eq_one_iff _ _),
    utf8_unitString_ne_zero _ _, fun k lt => extract_packBytes 72 _ k (by omega)⟩

theorem suffixCode_eq_zero_iff (x : Suffix) : suffixCode x = 0#2 ↔ x = .none := by
  cases x <;> decide

/-- Settles O38: with no suffix the unit is its base string, and each base unit has a line of the table. -/
theorem baseUnitStringsAsListed : Obligations.BaseUnitStringsAsListed := by
  intro w noSuffix
  have none : suffixSel w = .none := (suffixCode_eq_zero_iff _).1 noSuffix
  have unit : decodeUnit w = baseUnitString (baseUnit w) := by rw [decodeUnit, none, unitString_none]
  simp only [decoderPorts, unit]
  cases baseUnit w <;> decide

end Sys2Proof.Proofs
end

section
/-! The Measurement of a frame and the totality of the machine (R180–R185, R204–R209): DECODE pairs the responses of its
two projections, every instruction has a next state, and so has every step in which a call in progress has its owner. -/

namespace Sys2Proof.Proofs

open Sys2Proof.Machine Sys2Proof.Laws

variable {s : State}

/-! ## The Measurement -/

/-- Settles O20: with a frame at hand, both forms respond its Measurement. -/
theorem decodeRespondsMeasurement : Obligations.DecodeRespondsMeasurement :=
  fun _ _ s => ⟨fun held => congrArg (decodeOf · s) held, rfl⟩

/-- Settles O25: the value and the unit are those of decodeValue and decodeUnit, which read the frame alone. -/
theorem oneMeasurementPerFrame : Obligations.OneMeasurementPerFrame := by
  refine fun f => ⟨decodeValue f, decodeUnit f, fun w s => ⟨?_, fun held => ?_⟩⟩
  · exact ⟨(decodeRespondsMeasurement f f s).2, (decodeValueRespondsValue f f s).2, (decodeUnitRespondsUnit f f s).2⟩
  · exact ⟨(decodeRespondsMeasurement w f s).1 held, (decodeValueRespondsValue w f s).1 held,
      (decodeUnitRespondsUnit w f s).1 held⟩

/-! ## Next states -/

/-- Settles O53: a fault and a refusal are marks of the next state, as a response is an entry of its log. -/
theorem everyInstructionHasANextState : Obligations.EveryInstructionHasANextState := by
  intro i s
  rcases exec_cases i s with ⟨w, -, -, e⟩ | e | e | ⟨r, e⟩ | e | ⟨v, e⟩
  all_goals exact ⟨_, e⟩

theorem exists_next_consumeEvent {h : HostId} (e : StreamEvent) (owner : s.rdOwner = some h) :
    ∃ t, consumeEvent e s = .next t := by
  rcases consumeEvent_cases e s h owner with ⟨b, -, -, next⟩ | ⟨b, -, -, next⟩ | ⟨-, next⟩ | ⟨-, next⟩
  all_goals exact ⟨_, next⟩

/-- A FrameReader's turn stops the machine only where a call ends without an owner (log entry 9). -/
theorem exists_next_readerStep (owned : s.rdStatus = .busy → ∃ h, s.rdOwner = some h) :
    ∃ t, readerStep s = .next t := by
  by_cases wait : s.rdStatus ≠ .busy ∨ s.stream = []
  · exact ⟨s, readerStep_waits s wait⟩
  · push Not at wait
    obtain ⟨busy, offers⟩ := wait
    obtain ⟨e, es, offered⟩ := List.exists_cons_of_ne_nil offers
    obtain ⟨h, owner⟩ := owned busy
    rw [readerStep_busy s e es busy offered]
    exact exists_next_consumeEvent e owner

/-- Settles O59: an instruction has a next state, the invariant gives a call in progress its owner, and every other turn
only passes or resets the core. -/
theorem stepNeverStopsTheMachine : Obligations.StepNeverStopsTheMachine := by
  intro s inv
  rcases step_cases s with ⟨-, e⟩ | ⟨h, c, rest, -, -, e⟩ | ⟨h, c, rest, -, -, e⟩ |
    ⟨w, g, rest, -, e⟩ | ⟨rest, -, e⟩ | ⟨rest, -, e⟩ <;> rw [e]
  · exact ⟨_, rfl⟩
  · exact ⟨_, rfl⟩
  · exact everyInstructionHasANextState _ _
  · exact everyInstructionHasANextState _ _
  · refine exists_next_readerStep fun busy => ?_
    obtain ⟨h, -, owner⟩ := inv.owner busy
    exact ⟨h, owner⟩
  · exact ⟨_, rfl⟩

end Sys2Proof.Proofs
end

section
/-! Stopped hosts (R204, R205, R207): a command that faults stops its host and changes nothing else but the record, and a
stopped host is neither the issuer of a command that runs nor the owner of the call in progress, the two hosts that a
response can go to. -/

namespace Sys2Proof.Proofs

open Sys2Proof.Machine Sys2Proof.Laws

variable {s t : State} {h : HostId}

/-! ## The two faults -/

/-- Settles O14: during a call, exec takes the fault of the issuer. -/
theorem concurrentReadFaults : Obligations.ConcurrentReadFaults :=
  fun _ s busy => ⟨insertHost s.issuer s.halted, if_pos busy, fun k => mem_insertHost s.issuer k s.halted⟩

theorem exec_decodeValueRd_of_none (w : FrameWord) (empty : s.rdFrame = none) :
    exec (.decodeValueRd w) s = .next (takeFault .noFrame s.issuer s) :=
  congrArg (decodeValueOf · s) empty

theorem exec_decodeUnitRd_of_none (w : FrameWord) (empty : s.rdFrame = none) :
    exec (.decodeUnitRd w) s = .next (takeFault .noFrame s.issuer s) :=
  congrArg (decodeUnitOf · s) empty

/-- Settles O23: either way rd_frame holds no value, and each of the three forms takes the fault of the issuer. -/
theorem rdFormWithoutFrameFaults : Obligations.RdFormWithoutFrameFaults := by
  intro w s noFrame
  have empty : s.rdFrame = none := noFrame.elim id fun ⟨held, notOk⟩ => rdFrame_eq_none held notOk
  refine ⟨insertHost s.issuer s.halted, fun k => mem_insertHost s.issuer k s.halted, ?_⟩
  rw [List.forall_mem_cons, List.forall_mem_cons, List.forall_mem_singleton]
  exact ⟨exec_decodeRd_of_none w empty, exec_decodeValueRd_of_none w empty, exec_decodeUnitRd_of_none w empty⟩

/-! ## What a step does to a stopped host -/

/-- In t host h is stopped, and the way from s to t added no response to it. -/
def StoppedUnanswered (h : HostId) (s t : State) : Prop :=
  h ∈ t.halted ∧ ∀ e, t.log = s.log ++ [e] → e.1 ≠ h

theorem stoppedUnanswered_of_sameLog (stopped : h ∈ t.halted) (log : t.log = s.log) : StoppedUnanswered h s t :=
  ⟨stopped, fun e added => absurd (log.symm.trans added) (by simp)⟩

theorem stoppedUnanswered_of_answered {k : HostId} {r : Response} (stopped : h ∈ t.halted) (other : k ≠ h)
    (log : t.log = s.log ++ [(k, r)]) : StoppedUnanswered h s t := by
  refine ⟨stopped, fun e added => ?_⟩
  have answer : (k, r) = e := List.singleton_inj.1 (List.append_cancel_left (log.symm.trans added))
  exact answer ▸ other

/-- An instruction responds to its issuer alone, and the hosts it stops join those stopped before. -/
theorem stoppedUnanswered_exec (i : Instr) (stopped : h ∈ s.halted) (other : s.issuer ≠ h)
    (next : exec i s = .next t) : StoppedUnanswered h s t := by
  have still : h ∈ insertHost s.issuer s.halted := (mem_insertHost _ _ _).2 (.inr stopped)
  rcases exec_cases i s with ⟨w, -, -, e⟩ | e | e | ⟨r, e⟩ | e | ⟨v, e⟩ <;> rw [e] at next <;> cases next
  · exact stoppedUnanswered_of_sameLog stopped rfl
  · exact stoppedUnanswered_of_sameLog still rfl
  · exact stoppedUnanswered_of_sameLog still rfl
  · exact stoppedUnanswered_of_answered stopped other rfl
  · exact stoppedUnanswered_of_sameLog still rfl
  · exact stoppedUnanswered_of_sameLog stopped rfl

/-- The FrameReader responds to the owner alone, who is blocked (R27, R100) and so is not stopped. -/
theorem stoppedUnanswered_readerTurn (inv : MachineInv s) (stopped : h ∈ s.halted) (turn : ReaderTurn s t) :
    StoppedUnanswered h s t := by
  have other {k : HostId} (busy : s.rdStatus = .busy) (owner : s.rdOwner = some k) : k ≠ h := by
    obtain ⟨-, -, apart⟩ := inv.hosts
    obtain ⟨k', blocked, owner'⟩ := inv.owner busy
    obtain rfl : k = k' := Option.some.inj (owner.symm.trans owner')
    exact fun is => apart k blocked (is ▸ stopped)
  cases turn with
  | waits | stores => exact stoppedUnanswered_of_sameLog stopped rfl
  | delivers k b es busy offered last owner => exact stoppedUnanswered_of_answered stopped (other busy owner) rfl
  | endsShort k es busy offered owner | fails k es busy offered owner =>
    exact stoppedUnanswered_of_answered stopped (other busy owner) rfl

/-- Settles O55: the issuer of a command that runs can move, so it is not the stopped host, and a probe responds to no
one. -/
theorem stoppedHostsGetNoResponse : Obligations.StoppedHostsGetNoResponse := by
  intro s t h inv next running stopped
  rcases step_cases s with ⟨-, e⟩ | ⟨k, c, rest, -, -, e⟩ | ⟨k, c, rest, -, moves, e⟩ |
    ⟨w, g, rest, -, e⟩ | ⟨rest, -, e⟩ | ⟨rest, sch, -⟩
  case inr.inr.inr.inr.inr => exact absurd sch (running rest)
  all_goals rw [e] at next
  · cases next
    exact stoppedUnanswered_of_sameLog stopped rfl
  · cases next
    exact stoppedUnanswered_of_sameLog stopped rfl
  · obtain ⟨-, going⟩ := (canMove_iff k s).1 moves
    have other : k ≠ h := fun is => going (is ▸ stopped)
    exact stoppedUnanswered_exec (s := { s with schedule := rest, issuer := k }) _ stopped other next
  · rw [exec_decodeRow] at next
    cases next
    exact stoppedUnanswered_of_sameLog stopped rfl
  · exact stoppedUnanswered_readerTurn (s := { s with schedule := rest }) { inv with } stopped
      (readerTurn_of_readerStep next)

end Sys2Proof.Proofs
end

section
/-! Reset during a call (R232, log entry 7): a reset turn leaves the core outside a call, and outside a call the
FrameReader's turns pass, so nothing answers the owner of the call that the reset ended, who stays blocked. -/

namespace Sys2Proof.Proofs

open Sys2Proof.Machine Sys2Proof.Laws

variable {s : State} {rest : List Turn}

/-- Any number of turns of a FrameReader that waits change the schedule alone (R101, R102). -/
theorem runSteps_readers_wait (n : Nat) (sch : s.schedule = List.replicate n .reader ++ rest)
    (wait : s.rdStatus ≠ .busy ∨ s.stream = []) : runSteps n s = .next { s with schedule := rest } := by
  induction n generalizing s with
  | zero =>
    have passed : s.schedule = rest := sch
    rw [← passed, runSteps]
  | succ n ih => exact (runSteps_succ n s _ (step_reader_waits sch wait)).trans (ih rfl wait)

theorem runSteps_reset_readers (n : Nat) (sch : s.schedule = .reset :: (List.replicate n .reader ++ rest)) :
    runSteps (n + 1) s = .next (resetCore { s with schedule := rest }) :=
  (runSteps_succ n s _ (step_reset sch)).trans (runSteps_readers_wait n rfl (.inl (by simp)))

/-- Settles O2: the run ends in the reset state of the core, in which the owner is blocked as before. -/
theorem resetDuringCallGivesNoResponse : Obligations.ResetDuringCallGivesNoResponse := by
  intro s h n rest _ _ blocked sch
  have still : canMove h (resetCore { s with schedule := rest }) = false :=
    (canMove_eq_false_iff h _).2 (.inl blocked)
  exact ⟨_, runSteps_reset_readers n sch, rfl, rfl, rfl, rfl, rfl, rfl, blocked, still, rfl⟩

end Sys2Proof.Proofs
end
